-- ==== Sys2Proof/Word.lean ====
section
/-! DEFINITION. The word types of the CHIP-8 core: what the spec shifts, masks or wraps is a bit vector (00_scope.md R8, R9),
a register name is an index (10_state.md R21). -/

namespace Sys2Proof

/-- A u8: a general register, a timer, a memory byte, the `nn` field (00_scope.md R7 `V_WIDTH`, `TIMER_WIDTH`). -/
abbrev Byte := BitVec 8

/-- A u16: I, PC, a call-stack entry, an instruction word (00_scope.md R7 `I_WIDTH`, `PC_WIDTH`, `STACK_ENTRY_WIDTH`). -/
abbrev Word := BitVec 16

/-- The 12-bit address field `nnn` (30_encoding.md R71). -/
abbrev Addr12 := BitVec 12

/-- The name of a general register V0..VF: "always in `[0,15]`" by construction (10_state.md R21). -/
abbrev Reg := Fin 16

end Sys2Proof
end

