-- ==== Sys2Proof/Syntax.lean ====
section
/-! DEFINITION. The closed instruction set (30_encoding.md R75, R77, R78): one constructor per row of spec/opcode_table.json, in
the table's order, and the assembler text of R80. -/

namespace Sys2Proof

/-- The 34 instructions. `x` and `y` name registers, `nn` is the 8-bit immediate, `nnn` the 12-bit address, `n` the sprite
height, a count of rows (30_encoding.md R71, R73). -/
inductive Instr where
  | cls                              -- 00E0
  | ret                              -- 00EE
  | jp (nnn : Addr12)                -- 1NNN
  | call (nnn : Addr12)              -- 2NNN
  | seImm (x : Reg) (nn : Byte)      -- 3XNN
  | sneImm (x : Reg) (nn : Byte)     -- 4XNN
  | seReg (x y : Reg)                -- 5XY0
  | ldImm (x : Reg) (nn : Byte)      -- 6XNN
  | addImm (x : Reg) (nn : Byte)     -- 7XNN
  | ldReg (x y : Reg)                -- 8XY0
  | orReg (x y : Reg)                -- 8XY1
  | andReg (x y : Reg)               -- 8XY2
  | xorReg (x y : Reg)               -- 8XY3
  | addReg (x y : Reg)               -- 8XY4
  | subReg (x y : Reg)               -- 8XY5
  | shr (x y : Reg)                  -- 8XY6, y carried but ignored
  | subnReg (x y : Reg)              -- 8XY7
  | shl (x y : Reg)                  -- 8XYE, y carried but ignored
  | sneReg (x y : Reg)               -- 9XY0
  | ldI (nnn : Addr12)               -- ANNN
  | jpV0 (nnn : Addr12)              -- BNNN
  | rnd (x : Reg) (nn : Byte)        -- CXNN
  | drw (x y : Reg) (n : Nat)        -- DXYN
  | skp (x : Reg)                    -- EX9E
  | sknp (x : Reg)                   -- EXA1
  | ldVxDt (x : Reg)                 -- FX07
  | ldVxK (x : Reg)                  -- FX0A
  | ldDtVx (x : Reg)                 -- FX15
  | ldStVx (x : Reg)                 -- FX18
  | addI (x : Reg)                   -- FX1E
  | ldF (x : Reg)                    -- FX29
  | ldB (x : Reg)                    -- FX33
  | ldMemVx (x : Reg)                -- FX55
  | ldVxMem (x : Reg)                -- FX65
  deriving DecidableEq, Repr

/-- One hexadecimal digit, in capitals (the low nibble of `d`). -/
def hexDigit (d : Nat) : String :=
  ["0", "1", "2", "3", "4", "5", "6", "7", "8", "9", "A", "B", "C", "D", "E", "F"].getD (d % 16) ""

/-- A register operand: `V0`..`VF` (30_encoding.md R80). -/
def regText (x : Reg) : String := "V" ++ hexDigit x.val

/-- An 8-bit immediate in hex with the `0x` prefix (30_encoding.md R80). -/
def immText (nn : Byte) : String := "0x" ++ hexDigit (nn.toNat / 16) ++ hexDigit nn.toNat

/-- A 12-bit address in hex with the `0x` prefix (30_encoding.md R80). -/
def addrText (nnn : Addr12) : String :=
  "0x" ++ hexDigit (nnn.toNat / 256) ++ hexDigit (nnn.toNat / 16) ++ hexDigit nnn.toNat

/-- The assembler text of an instruction: one mnemonic, then the operands separated by commas; `SHR` and `SHL` record their
ignored y field (30_encoding.md R80; D28, log 27: PRESUMED, naming only, safe). R80 gives no radix for the height N of `DRW`; it is
printed in decimal, with no prefix (log 27: DESIGN CHOICE, naming only, safe). -/
def Instr.assembly : Instr → String
  | .cls => "CLS"
  | .ret => "RET"
  | .jp nnn => "JP " ++ addrText nnn
  | .call nnn => "CALL " ++ addrText nnn
  | .seImm x nn => "SE " ++ regText x ++ ", " ++ immText nn
  | .sneImm x nn => "SNE " ++ regText x ++ ", " ++ immText nn
  | .seReg x y => "SE " ++ regText x ++ ", " ++ regText y
  | .ldImm x nn => "LD " ++ regText x ++ ", " ++ immText nn
  | .addImm x nn => "ADD " ++ regText x ++ ", " ++ immText nn
  | .ldReg x y => "LD " ++ regText x ++ ", " ++ regText y
  | .orReg x y => "OR " ++ regText x ++ ", " ++ regText y
  | .andReg x y => "AND " ++ regText x ++ ", " ++ regText y
  | .xorReg x y => "XOR " ++ regText x ++ ", " ++ regText y
  | .addReg x y => "ADD " ++ regText x ++ ", " ++ regText y
  | .subReg x y => "SUB " ++ regText x ++ ", " ++ regText y
  | .shr x y => "SHR " ++ regText x ++ ", " ++ regText y
  | .subnReg x y => "SUBN " ++ regText x ++ ", " ++ regText y
  | .shl x y => "SHL " ++ regText x ++ ", " ++ regText y
  | .sneReg x y => "SNE " ++ regText x ++ ", " ++ regText y
  | .ldI nnn => "LD I, " ++ addrText nnn
  | .jpV0 nnn => "JP V0, " ++ addrText nnn
  | .rnd x nn => "RND " ++ regText x ++ ", " ++ immText nn
  | .drw x y n => "DRW " ++ regText x ++ ", " ++ regText y ++ ", " ++ toString n
  | .skp x => "SKP " ++ regText x
  | .sknp x => "SKNP " ++ regText x
  | .ldVxDt x => "LD " ++ regText x ++ ", DT"
  | .ldVxK x => "LD " ++ regText x ++ ", K"
  | .ldDtVx x => "LD DT, " ++ regText x
  | .ldStVx x => "LD ST, " ++ regText x
  | .addI x => "ADD I, " ++ regText x
  | .ldF x => "LD F, " ++ regText x
  | .ldB x => "LD B, " ++ regText x
  | .ldMemVx x => "LD [I], " ++ regText x
  | .ldVxMem x => "LD " ++ regText x ++ ", [I]"

end Sys2Proof
end

