-- ==== Sys2Proof/Config.lean ====
section
/-! DEFINITION. The parameters that shape the machine (00_scope.md R7), each at the value this hardware takes, and the one
free value. The parameters whose value is a choice of the spec that a test could show wrong stand in Machine/Parameters.lean.
The numeric literals are unaudited in the source (D35; log 24: UNVERIFIED, unsafe). -/

namespace Sys2Proof.Config

/-- `MEM_SIZE`: bytes of the one address space. -/
@[simp] abbrev memSize : Nat := 4096

/-- `ROM_BASE`: where ROM load writes. -/
@[simp] abbrev romBase : Nat := 0x200

/-- `ROM_MAX` = `MEM_SIZE - ROM_BASE`: the longest ROM that loads. -/
@[simp] abbrev romMax : Nat := 3584

/-- `STACK_DEPTH`: entries of the call stack. -/
@[simp] abbrev stackDepth : Nat := 16

/-- `NUM_KEYS`: flags of the keypad. -/
@[simp] abbrev numKeys : Nat := 16

/-- `GLYPH_BYTES`: bytes of one glyph. -/
@[simp] abbrev glyphBytes : Nat := 5

/-- `RANDOM` (41_alu.md R142): the byte the n-th `RND` draws. "any u8, fresh for each execution": a constant with no body, so
no proof can see a value of it (D26; log 4: DESIGN CHOICE, safe). -/
opaque randomByte : Nat → Byte

end Sys2Proof.Config
end

