-- ==== Sys2Proof/Machine/Parameters.lean ====
section
/-! DEFINITION. The parameters of 00_scope.md R7 whose value is a choice of the spec (D5, D6, D9, D14): where the glyphs
lie, their bytes, the entry point, which pressed key the key-wait takes. -/

namespace Sys2Proof.Machine

/-- `FONT_BASE` (D5; log 7: DESIGN CHOICE, unsafe). -/
def fontBase : Nat := 0x000

/-- `ENTRY_PC` (D9; log 6: DESIGN CHOICE, unsafe). -/
def entryPc : Word := 0x0200

/-- `GLYPH_ROM`: the 80 bytes of 20_memory.md R58, digit by digit (D6; log 7: PRESUMED, unsafe). -/
def glyphRom : List Byte :=
  [0xF0, 0x90, 0x90, 0x90, 0xF0] ++ [0x20, 0x60, 0x20, 0x20, 0x70] ++ [0xF0, 0x10, 0xF0, 0x80, 0xF0] ++
  [0xF0, 0x10, 0xF0, 0x10, 0xF0] ++ [0x90, 0x90, 0xF0, 0x10, 0x10] ++ [0xF0, 0x80, 0xF0, 0x10, 0xF0] ++
  [0xF0, 0x80, 0xF0, 0x90, 0xF0] ++ [0xF0, 0x10, 0x20, 0x40, 0x40] ++ [0xF0, 0x90, 0xF0, 0x90, 0xF0] ++
  [0xF0, 0x90, 0xF0, 0x10, 0xF0] ++ [0xF0, 0x90, 0xF0, 0x90, 0x90] ++ [0xE0, 0x90, 0xE0, 0x90, 0xE0] ++
  [0xF0, 0x80, 0x80, 0x80, 0xF0] ++ [0xE0, 0x90, 0x90, 0x90, 0xE0] ++ [0xF0, 0x80, 0xF0, 0x80, 0xF0] ++
  [0xF0, 0x80, 0xF0, 0x80, 0x80]

/-- `KEY_PICK`: of the pressed keys, listed from the lowest number up, the one `LD VX, K` loads: the lowest-numbered
(44_timers_keys.md R214; D14, log 14: DESIGN CHOICE, unsafe). None when no key is pressed. -/
def keyPick (pressed : List (Fin 16)) : Option (Fin 16) := pressed.head?

end Sys2Proof.Machine
end

