-- ==== Sys2Proof/Machine/State.lean ====
section
/-! DEFINITION. The state of the block (10_state.md R20), its errors, outcomes and host calls, and the state after construction
or reset (R37). Plain data throughout. -/

namespace Sys2Proof.Machine

/-- What an out-of-range access was for (20_memory.md R53). -/
inductive AccessKind where
  | fetch | sprite | bcd | store | load | key
  deriving DecidableEq, Repr

/-- The errors a tick can raise, all fatal to the running program (60_exceptions.md R230). They are part of the machine's
state and results, not stops of the model: the spec describes what raising one does (R232). -/
inductive VmError where
  | stackOverflow
  | stackUnderflow
  | unknownInstruction (w : Word)
  /-- `a` is the first out-of-range address, or the key value (D21); addresses are unbounded naturals (00_scope.md R8). -/
  | indexOutOfRange (kind : AccessKind) (a : Nat)
  deriving DecidableEq, Repr

/-- The engine's operating state (10_state.md R30). -/
inductive RunState where
  | running
  | waitingForKey
  | faulted (e : VmError)
  deriving DecidableEq, Repr

/-- The result of an instruction tick (30_encoding.md R83). -/
inductive TickOutcome where
  | continued
  | redraw
  | blocked
  | error (e : VmError)
  deriving DecidableEq, Repr

/-- The result of a timer tick (60_exceptions.md R239). -/
inductive TimerOutcome where
  | noChange
  | soundStarted
  | soundStopped
  deriving DecidableEq, Repr

/-- The result of an admitted ROM load (70_reset_and_hazards.md R274, R275). -/
inductive LoadOutcome where
  | success
  | romTooLarge
  deriving DecidableEq, Repr

/-- The 4096-byte store as a list of (address, byte) cells; an address not listed reads as its reset contents. The canonical
form is `Memory.wf` (Machine/Memory.lean). -/
abbrev Memory := List Host.Cell

/-- The framebuffer: 32 rows of 64 pixels, row 0 the top, column 0 the left (10_state.md R33; D13, log 17). -/
abbrev Framebuffer := Vector (Vector Bool 64) 32

/-- The 16 keypad flags, key k pressed when flag k is true (60_exceptions.md R243). -/
abbrev Keypad := Vector Bool 16

/-- A call of one of the six entry points (00_scope.md R6). -/
inductive HostCall where
  /-- Instruction tick, with the keypad flags held in `State.keys` (30_encoding.md R81). -/
  | tick
  /-- Timer tick (60_exceptions.md R239). -/
  | timerTick
  /-- ROM load (70_reset_and_hazards.md R274). -/
  | load (rom : List Byte)
  /-- Reset (70_reset_and_hazards.md R272). -/
  | reset
  /-- Framebuffer read (60_exceptions.md R244). -/
  | framebufferRead
  /-- Keypad write (60_exceptions.md R243). -/
  | keypadWrite (keys : Keypad)
  deriving DecidableEq, Repr

/-- What the last entry-point call returned (00_scope.md R6; log 3). -/
inductive CallResult where
  /-- No call yet, or a call that returns none (reset, keypad write). -/
  | nothing
  | tick (o : TickOutcome)
  | timer (o : TimerOutcome)
  | load (o : LoadOutcome)
  | snapshot (fb : Framebuffer)
  deriving DecidableEq, Repr

/-- The machine never stops with a fault: every error of the spec is raised as an effect it describes (60_exceptions.md R232)
and is a next state (log 11), so the type has no constructor. -/
inductive Fault where
  deriving DecidableEq, Repr

/-- Why the model has no step. -/
inductive Refusal where
  /-- An instruction whose meaning is not written yet; raised by an arm of `exec` only. Safe: no step exists. -/
  | notModelled (mnemonic : String)
  /-- Raised by the ROM-load entry point while `loadAdmitted` is false: "outside the model: the model has no step for it (a
  refusal)" (70_reset_and_hazards.md R276; D25, log 18). Safe: no step exists. -/
  | loadNotAdmitted
  deriving DecidableEq, Repr

/-- The state record of 10_state.md R20, the block's ports, and the model's own draw counter. -/
structure State where
  /-- `mem`, 4096 bytes (20_memory.md R50). -/
  mem : Memory
  /-- V0..VF (10_state.md R21). -/
  v : Vector Byte 16
  /-- The index register I (10_state.md R25). -/
  i : Word
  /-- The program counter (10_state.md R24). -/
  pc : Word
  /-- The call stack (10_state.md R26). -/
  stack : Vector Word 16
  /-- SP, "the number of valid entries on the call stack, an integer in [0, 16]" (10_state.md R27). -/
  sp : Fin 17
  /-- The delay timer (10_state.md R28). -/
  dt : Byte
  /-- The sound timer (10_state.md R29). -/
  st : Byte
  /-- The framebuffer (10_state.md R33). -/
  fb : Framebuffer
  /-- The operating state (10_state.md R30). -/
  run : RunState
  /-- Whether the last sound edge reported was a start (10_state.md R31). -/
  soundLatch : Bool
  /-- Whether ROM load is admitted (10_state.md R32). -/
  loadAdmitted : Bool
  /-- Input port: the keypad flags the host last wrote (60_exceptions.md R243; log 2). -/
  keys : Keypad
  /-- The host's coming entry-point calls, the next one first: the free input of 60_exceptions.md R249 (log 1). -/
  calls : List HostCall
  /-- Output port: what the last call returned (log 3). -/
  result : CallResult
  /-- MODEL's own: how many bytes `RND` has drawn (log 4). -/
  draws : Nat
  deriving DecidableEq, Repr

/-- The state after construction or reset (10_state.md R37, 70_reset_and_hazards.md R270, R271; log 6, log 7). Memory lists
nothing: every byte has its reset contents. The ports and the draw counter are the model's own (logs 1 to 4). -/
def State.reset : State where
  mem := []
  v := Vector.replicate 16 0
  i := 0
  pc := entryPc
  stack := Vector.replicate 16 0
  sp := 0
  dt := 0
  st := 0
  fb := Vector.replicate 32 (Vector.replicate 64 false)
  run := .running
  soundLatch := false
  loadAdmitted := true
  keys := Vector.replicate 16 false
  calls := []
  result := .nothing
  draws := 0

end Sys2Proof.Machine
end

