-- ==== Sys2Proof/Machine/Memory.lean ====
section
/-! DEFINITION. The memory controller (20_memory.md): reset contents, one-byte read and write over the canonical cell list, and
the canonical form. Every data access is one byte (R55); no address has a side effect on read and none is protected (R57,
R59). -/

namespace Sys2Proof.Machine

/-- What an address nothing has written reads as: the glyph set at its base, 0x00 everywhere else (20_memory.md R58,
10_state.md R37; log 7). -/
def resetByte (a : Nat) : Byte :=
  if fontBase ≤ a then glyphRom.getD (a - fontBase) 0 else 0

/-- `mem[a]` (20_memory.md R52). Every rule checks its range first, so it is read at `a < MEM_SIZE` only (log 22). -/
def Memory.byte : Memory → Nat → Byte
  | [], a => resetByte a
  | (k, b) :: rest, a => if k = a then b else Memory.byte rest a

/-- A cell list with the cell `(a, b)` put before `rest`, or nothing where `b` is what the address reads as anyway. -/
def Memory.cellBefore (a : Nat) (b : Byte) (rest : Memory) : Memory :=
  if b = resetByte a then rest else (a, b) :: rest

/-- `mem[a] <- b` (20_memory.md R52), keeping the canonical form. -/
def Memory.write : Memory → Nat → Byte → Memory
  | [], a, b => Memory.cellBefore a b []
  | (k, c) :: rest, a, b =>
    if k < a then (k, c) :: Memory.write rest a b
    else if k = a then Memory.cellBefore a b rest
    else Memory.cellBefore a b ((k, c) :: rest)

/-- Bytes written at ascending addresses from `a`. -/
def Memory.writeBlock : Memory → Nat → List Byte → Memory
  | m, _, [] => m
  | m, a, b :: bs => Memory.writeBlock (m.write a b) (a + 1) bs

/-- From address `low` on: addresses strictly rising, inside the address space, no cell equal to the reset contents. -/
def Memory.wfFrom : Nat → Memory → Bool
  | _, [] => true
  | low, (k, b) :: rest =>
    decide (low ≤ k) && decide (k < Config.memSize) && decide (b ≠ resetByte k) && Memory.wfFrom (k + 1) rest

/-- The canonical form of memory: equal memories are equal lists. -/
def Memory.wf (m : Memory) : Bool := Memory.wfFrom 0 m

end Sys2Proof.Machine
end

