-- ==== Sys2Proof/Machine/Ops.lean ====
section
/-! DEFINITION. The named operations every meaning is made of: reading and writing registers, memory, call stack and
framebuffer, the range check, completing an instruction, and raising an error.

The discipline of 00_scope.md R11: a meaning reads the state `s` it is given and builds the new state by writes in the order of
the rule's pseudocode, so every read sees the pre-instruction value, a later write to a place wins, and a raise, which starts
from `s` again, applies none of them. -/

namespace Sys2Proof.Machine

/-- What a meaning or an entry point answers. -/
abbrev Result := Host.Outcome State Fault Refusal

/-! Registers, memory, timers, framebuffer. -/

/-- `V[x]` (00_scope.md R10). -/
def State.reg (s : State) (x : Reg) : Byte := s.v[x]
/-- `V[x] <- b` (00_scope.md R10). -/
def State.setReg (s : State) (x : Reg) (b : Byte) : State := { s with v := s.v.set x.val b }
/-- `I <- w`. -/
def State.setI (s : State) (w : Word) : State := { s with i := w }
/-- `DT <- b`. -/
def State.setDt (s : State) (b : Byte) : State := { s with dt := b }
/-- `ST <- b`. -/
def State.setSt (s : State) (b : Byte) : State := { s with st := b }
/-- `MemWrite(a, 1, b)` (20_memory.md R52), after its range check. -/
def State.memWrite (s : State) (a : Nat) (b : Byte) : State := { s with mem := s.mem.write a b }
/-- The whole framebuffer replaced. -/
def State.setFb (s : State) (f : Framebuffer) : State := { s with fb := f }
/-- One random byte has been drawn (41_alu.md R142; log 4). -/
def State.drawn (s : State) : State := { s with draws := s.draws + 1 }

/-- `FB(px, py)` (00_scope.md R10). -/
def Framebuffer.pixel (f : Framebuffer) (px : Fin 64) (py : Fin 32) : Bool := (f[py])[px]
/-- `FB(px, py) <- b`. -/
def Framebuffer.setPixel (f : Framebuffer) (px : Fin 64) (py : Fin 32) (b : Bool) : Framebuffer :=
  f.set py.val ((f[py]).set px.val b)
/-- Every pixel false. -/
def Framebuffer.clear : Framebuffer := Vector.replicate 32 (Vector.replicate 64 false)

/-! The call stack (10_state.md R26, R27). -/

/-- `stack[SP] <- w; SP <- SP + 1`, where there is room. -/
def State.push (s : State) (w : Word) (room : s.sp.val < 16) : State :=
  { s with stack := s.stack.set s.sp.val w, sp := ⟨s.sp.val + 1, by omega⟩ }
/-- `stack[SP - 1]`, where there is an entry. -/
def State.top (s : State) (held : 0 < s.sp.val) : Word := s.stack[s.sp.val - 1]'(by omega)
/-- `SP <- SP - 1`; the entry read is left in `stack` (40_control_flow.md R101). -/
def State.drop (s : State) (held : 0 < s.sp.val) : State :=
  { s with sp := ⟨s.sp.val - 1, by omega⟩ }

/-! Completing an instruction and raising an error. -/

/-- The end of an instruction that completes: PC, `run` and the tick's outcome (30_encoding.md R81, R82, R83). -/
def State.finish (s : State) (nextPc : Word) (nextRun : RunState) (out : TickOutcome) : State :=
  { s with pc := nextPc, run := nextRun, result := .tick out }

/-- Error entry (60_exceptions.md R232): nothing but `run` and the result changes; "no mode changes, no vector is taken and no
handler runs". There is no return from it but reset (R233). -/
def State.faultWith (s : State) (e : VmError) : State :=
  { s with run := .faulted e, result := .tick (.error e) }

/-! What a call does to the state around the instruction. -/

/-- `loadAdmitted <- false` (30_encoding.md R81). -/
def State.closeLoad (s : State) : State := { s with loadAdmitted := false }
/-- The result an entry-point call returns (00_scope.md R6). -/
def State.answer (s : State) (r : CallResult) : State := { s with result := r }
/-- The calls the host makes from here on (60_exceptions.md R249). -/
def State.withCalls (s : State) (calls : List HostCall) : State := { s with calls := calls }

/-- `raise e` (00_scope.md R11). -/
def raise (e : VmError) (s : State) : Result := .next (s.faultWith e)

/-- Complete with `nextPC = target`, `run = Running` and outcome `Continued`. -/
def goTo (target : Word) (s : State) : Result := .next (s.finish target .running .continued)

/-- Complete with `nextPC = (PC + 2) mod 2^16` and outcome `Continued` (30_encoding.md R82). -/
def goOn (s : State) : Result := goTo (s.pc + 2) s

/-- Complete with `nextPC = PC + 2` and outcome `Redraw` (30_encoding.md R83). -/
def goOnRedraw (s : State) : Result := .next (s.finish (s.pc + 2) .running .redraw)

/-- A skip: `PC + 4` when the condition holds, else `PC + 2`, mod 2^16 (30_encoding.md R82). -/
def skipIf (condition : Bool) (s : State) : Result := goTo (if condition then s.pc + 4 else s.pc + 2) s

/-- `CheckRange(kind, a, n)` on unbounded naturals: the error it raises, if any (20_memory.md R53). -/
def checkRange (kind : AccessKind) (a n : Nat) : Option VmError :=
  if 0 < n ∧ Config.memSize < a + n then some (.indexOutOfRange kind (max a Config.memSize)) else none

/-- Run `body` behind `CheckRange(kind, a, n)` (42_index_memory.md R170: the whole range is checked before any byte moves). -/
def withRange (kind : AccessKind) (a n : Nat) (s : State) (body : Result) : Result :=
  match checkRange kind a n with
  | some e => raise e s
  | none => body

/-- The instruction word at PC, or the fetch error: `CheckRange(Fetch, PC, 2)`, then two bytes big-endian, at an odd PC as at an
even one (30_encoding.md R81, 20_memory.md R54, R56; log 12). -/
def fetch (s : State) : Except VmError Word :=
  match checkRange .fetch s.pc.toNat 2 with
  | some e => .error e
  | none => .ok (wordOfBytes (s.mem.byte s.pc.toNat) (s.mem.byte (s.pc.toNat + 1)))

end Sys2Proof.Machine
end

