-- ==== Sys2Proof/Machine/Flags.lean ====
section
/-! DEFINITION. Every flag the block computes; VF is the only flag register (10_state.md R22, R34). All arithmetic is on unsigned
bytes (41_alu.md R143). -/

namespace Sys2Proof.Machine

/-- VF, the flag register. -/
def vf : Reg := 15

/-- A flag as the byte VF receives: 1 or 0. -/
def flagByte (condition : Bool) : Byte := if condition then 1 else 0

/-- Carry of `a + b`: "1 if the unsigned sum overflowed 255" (41_alu.md R137). -/
def carry (a b : Byte) : Bool := decide (255 < a.toNat + b.toNat)

/-- No borrow of `a - b`: `a >= b` before the operation (41_alu.md R138, R140). -/
def noBorrow (a b : Byte) : Bool := decide (b.toNat ≤ a.toNat)

/-- The bit a right shift by one shifts out: bit 0 (41_alu.md R139). -/
def shiftedOutRight (a : Byte) : Bool := a.getLsbD 0

/-- The bit a left shift by one shifts out: bit 7 (41_alu.md R141). -/
def shiftedOutLeft (a : Byte) : Bool := a.getLsbD 7

/-- The result to VX, then the flag to VF: where X = F the flag wins (41_alu.md R130; D10, log 15). -/
def State.setRegThenFlag (s : State) (x : Reg) (value : Byte) (flag : Bool) : State :=
  (s.setReg x value).setReg vf (flagByte flag)

end Sys2Proof.Machine
end

