-- ==== Sys2Proof/Machine/Operands.lean ====
section
/-! DEFINITION. Operand forms: the zero-extended address, the key operand, the glyph address, the decimal digits, the register
range of a block transfer, and the lit pixels of a sprite. -/

namespace Sys2Proof.Machine

/-- `zext_16(nnn)` (30_encoding.md R73). -/
def zext (nnn : Addr12) : Word := nnn.setWidth 16

/-- The address `I + k` of an indexed access, on unbounded naturals (42_index_memory.md R170). -/
def State.indexed (s : State) (k : Nat) : Nat := s.i.toNat + k

/-- Run `body` with the key number a register holds; a value of 16 or more raises `IndexOutOfRange(Key, value)`
(40_control_flow.md R109, R110; D15, log 13). -/
def withKey (value : Byte) (s : State) (body : Fin 16 → Result) : Result :=
  if h : value.toNat < Config.numKeys then body ⟨value.toNat, h⟩
  else raise (.indexOutOfRange .key value.toNat) s

/-- The pressed keys from the lowest number up (44_timers_keys.md R214, the set P). -/
def pressedKeys (keys : Keypad) : List (Fin 16) := (List.finRange 16).filter fun k => keys[k]

/-- `FONT_BASE + GLYPH_BYTES * (V[x] & 0xF)` (42_index_memory.md R173). -/
def glyphAddress (value : Byte) : Word :=
  BitVec.ofNat 16 (fontBase + Config.glyphBytes * (value &&& 0x0F).toNat)

/-- Hundreds, tens and ones of a byte (42_index_memory.md R174). -/
def hundreds (value : Byte) : Byte := BitVec.ofNat 8 (value.toNat / 100)
def tens (value : Byte) : Byte := BitVec.ofNat 8 (value.toNat / 10 % 10)
def ones (value : Byte) : Byte := BitVec.ofNat 8 (value.toNat % 10)

/-- V0 to VX inclusive, in ascending order (42_index_memory.md R175, R176). -/
def regsUpTo (x : Reg) : List Reg := (List.finRange 16).filter fun k => decide (k ≤ x)

/-- Column of sprite bit `c` for a sprite drawn from column `x0`: wraps modulo 64 (43_display.md R191). -/
def pixelColumn (x0 : Byte) (c : Nat) : Fin 64 := ⟨(x0.toNat + c) % 64, Nat.mod_lt _ (by decide)⟩

/-- Row of sprite row `r` for a sprite drawn from row `y0`: wraps modulo 32 (43_display.md R191). -/
def pixelRow (y0 : Byte) (r : Nat) : Fin 32 := ⟨(y0.toNat + r) % 32, Nat.mod_lt _ (by decide)⟩

/-- The pixels of one sprite row that have their bit set, left to right; bit 7 is the leftmost (43_display.md R191 corner case
(e); D13, log 17). -/
def litInRow (bits x0 y0 : Byte) (r : Nat) : List (Fin 64 × Fin 32) :=
  ((List.range 8).filter fun c => bits.getLsbD (7 - c)).map fun c => (pixelColumn x0 c, pixelRow y0 r)

/-- The pixels the `n` sprite rows from memory at I have set, in the order the rule's loop meets them (43_display.md R191). -/
def State.litPixels (s : State) (x0 y0 : Byte) (n : Nat) : List (Fin 64 × Fin 32) :=
  (List.range n).flatMap fun r => litInRow (s.mem.byte (s.indexed r)) x0 y0 r

end Sys2Proof.Machine
end

