-- ==== Sys2Proof/Machine/Alu.lean ====
section
/-! DEFINITION. Register loads, arithmetic, logic, shifts and random (41_alu.md). Every instruction here goes on at `PC + 2` with
the outcome `Continued` and raises nothing; arithmetic wraps mod 256 (R143). -/

namespace Sys2Proof.Machine

/-- R131: VX = NN. -/
def execLdImm (x : Reg) (nn : Byte) (s : State) : Result := goOn (s.setReg x nn)

/-- R132: VX = VX + NN mod 256, no flag. -/
def execAddImm (x : Reg) (nn : Byte) (s : State) : Result := goOn (s.setReg x (s.reg x + nn))

/-- R133: VX = VY. -/
def execLdReg (x y : Reg) (s : State) : Result := goOn (s.setReg x (s.reg y))

/-- R134: VX = VX | VY, no flag. -/
def execOrReg (x y : Reg) (s : State) : Result := goOn (s.setReg x (s.reg x ||| s.reg y))

/-- R135: VX = VX & VY, no flag. -/
def execAndReg (x y : Reg) (s : State) : Result := goOn (s.setReg x (s.reg x &&& s.reg y))

/-- R136: VX = VX ^ VY, no flag. -/
def execXorReg (x y : Reg) (s : State) : Result := goOn (s.setReg x (s.reg x ^^^ s.reg y))

/-- R137: VX = VX + VY mod 256, VF = carry. -/
def execAddReg (x y : Reg) (s : State) : Result :=
  goOn (s.setRegThenFlag x (s.reg x + s.reg y) (carry (s.reg x) (s.reg y)))

/-- R138: VX = VX - VY mod 256, VF = no borrow. -/
def execSubReg (x y : Reg) (s : State) : Result :=
  goOn (s.setRegThenFlag x (s.reg x - s.reg y) (noBorrow (s.reg x) (s.reg y)))

/-- R139: VX = VX >> 1, VF = the bit shifted out; the y field is ignored. -/
def execShr (x _y : Reg) (s : State) : Result :=
  goOn (s.setRegThenFlag x (s.reg x >>> 1) (shiftedOutRight (s.reg x)))

/-- R140: VX = VY - VX mod 256, VF = no borrow. -/
def execSubnReg (x y : Reg) (s : State) : Result :=
  goOn (s.setRegThenFlag x (s.reg y - s.reg x) (noBorrow (s.reg y) (s.reg x)))

/-- R141: VX = VX << 1 mod 256, VF = the bit shifted out; the y field is ignored. -/
def execShl (x _y : Reg) (s : State) : Result :=
  goOn (s.setRegThenFlag x (s.reg x <<< 1) (shiftedOutLeft (s.reg x)))

/-- R142: VX = a fresh random byte & NN (D26, log 4). -/
def execRnd (x : Reg) (nn : Byte) (s : State) : Result :=
  goOn ((s.setReg x (Config.randomByte s.draws &&& nn)).drawn)

end Sys2Proof.Machine
end

