-- ==== Sys2Proof/Machine/Control.lean ====
section
/-! DEFINITION. Control transfer (40_control_flow.md): return, jumps, call and skips. Targets are taken as they are, odd or out
of range (R100; log 12); every instruction here completes with the outcome `Continued`. -/

namespace Sys2Proof.Machine

/-- R101: pop an address off the stack into PC; `StackUnderflow` on an empty stack. -/
def execRet (s : State) : Result :=
  if held : 0 < s.sp.val then goTo (s.top held) (s.drop held) else raise .stackUnderflow s

/-- R102: PC = NNN. -/
def execJp (nnn : Addr12) (s : State) : Result := goTo (zext nnn) s

/-- R103: push `PC + 2`, then PC = NNN; `StackOverflow` on a full stack. -/
def execCall (nnn : Addr12) (s : State) : Result :=
  if room : s.sp.val < Config.stackDepth then goTo (zext nnn) (s.push (s.pc + 2) room) else raise .stackOverflow s

/-- R104: PC = NNN + V0, not masked to 12 bits (D18, log 12); V0 whatever the X field holds. -/
def execJpV0 (nnn : Addr12) (s : State) : Result := goTo (zext nnn + (s.reg 0).setWidth 16) s

/-- R105: skip if VX equals NN. -/
def execSeImm (x : Reg) (nn : Byte) (s : State) : Result := skipIf (decide (s.reg x = nn)) s

/-- R106: skip if VX differs from NN (D2, log 9). -/
def execSneImm (x : Reg) (nn : Byte) (s : State) : Result := skipIf (decide (s.reg x ≠ nn)) s

/-- R107: skip if VX equals VY. -/
def execSeReg (x y : Reg) (s : State) : Result := skipIf (decide (s.reg x = s.reg y)) s

/-- R108: skip if VX differs from VY. -/
def execSneReg (x y : Reg) (s : State) : Result := skipIf (decide (s.reg x ≠ s.reg y)) s

/-- R109: skip if the key numbered VX is pressed. -/
def execSkp (x : Reg) (s : State) : Result := withKey (s.reg x) s fun k => skipIf s.keys[k] s

/-- R110: skip if the key numbered VX is not pressed. -/
def execSknp (x : Reg) (s : State) : Result := withKey (s.reg x) s fun k => skipIf (!s.keys[k]) s

end Sys2Proof.Machine
end

