-- ==== Sys2Proof/Machine/Display.lean ====
section
/-! DEFINITION. The framebuffer instructions (43_display.md); both go on at `PC + 2` with the outcome `Redraw`. -/

namespace Sys2Proof.Machine

/-- R190: every pixel false. -/
def execCls (s : State) : Result := goOnRedraw (s.setFb Framebuffer.clear)

/-- The listed pixels toggled, one after the other, each from its pre-instruction value in `before` (43_display.md R191,
00_scope.md R11). -/
def togglePixels (before : Framebuffer) (lit : List (Fin 64 × Fin 32)) : Framebuffer :=
  lit.foldl (fun f p => f.setPixel p.1 p.2 (!before.pixel p.1 p.2)) before

/-- "VF = 1 if any pixel went from set to unset" (43_display.md R191): some lit pixel was set before. -/
def collides (before : Framebuffer) (lit : List (Fin 64 × Fin 32)) : Bool :=
  lit.any fun p => before.pixel p.1 p.2

/-- R191: an 8-wide, N-high sprite from memory at I, composited by XOR at (VX, VY), VF = collision; with N = 0 nothing is drawn
and VF = 0 (D12, log 17). -/
def execDrw (x y : Reg) (n : Nat) (s : State) : Result :=
  withRange .sprite s.i.toNat n s <|
    goOnRedraw ((s.setFb (togglePixels s.fb (s.litPixels (s.reg x) (s.reg y) n))).setReg vf
      (flagByte (collides s.fb (s.litPixels (s.reg x) (s.reg y) n))))

end Sys2Proof.Machine
end

