-- ==== Sys2Proof/Machine/Index.lean ====
section
/-! DEFINITION. The index register and memory transfers (42_index_memory.md). Every instruction here goes on at `PC + 2` with
the outcome `Continued`; a transfer checks its whole range first and leaves I unchanged (R170; D11, log 16). -/

namespace Sys2Proof.Machine

/-- R171: I = NNN. -/
def execLdI (nnn : Addr12) (s : State) : Result := goOn (s.setI (zext nnn))

/-- R172: I = I + VX mod 2^16, no flag (D34, log 16). -/
def execAddI (x : Reg) (s : State) : Result := goOn (s.setI (s.i + (s.reg x).setWidth 16))

/-- R173: I = the address of the glyph of VX's low nibble. -/
def execLdF (x : Reg) (s : State) : Result := goOn (s.setI (glyphAddress (s.reg x)))

/-- R174: the three decimal digits of VX to memory at I, I+1, I+2. -/
def execLdB (x : Reg) (s : State) : Result :=
  withRange .bcd s.i.toNat 3 s <|
    goOn (((s.memWrite (s.indexed 0) (hundreds (s.reg x))).memWrite (s.indexed 1) (tens (s.reg x))).memWrite
      (s.indexed 2) (ones (s.reg x)))

/-- R175: V0..VX to memory from I on, in ascending order. -/
def execLdMemVx (x : Reg) (s : State) : Result :=
  withRange .store s.i.toNat (x.val + 1) s <|
    goOn ((regsUpTo x).foldl (fun t k => t.memWrite (s.indexed k.val) (s.reg k)) s)

/-- R176: V0..VX from memory from I on. -/
def execLdVxMem (x : Reg) (s : State) : Result :=
  withRange .load s.i.toNat (x.val + 1) s <|
    goOn ((regsUpTo x).foldl (fun t k => t.setReg k (s.mem.byte (s.indexed k.val))) s)

end Sys2Proof.Machine
end

