-- ==== Sys2Proof/Machine/TimersKeys.lean ====
section
/-! DEFINITION. Timer access and the key-wait (44_timers_keys.md). -/

namespace Sys2Proof.Machine

/-- R211: VX = DT. -/
def execLdVxDt (x : Reg) (s : State) : Result := goOn (s.setReg x s.dt)

/-- R212: DT = VX. -/
def execLdDtVx (x : Reg) (s : State) : Result := goOn (s.setDt (s.reg x))

/-- R213: ST = VX; no sound outcome. -/
def execLdStVx (x : Reg) (s : State) : Result := goOn (s.setSt (s.reg x))

/-- R214: VX = the number of a pressed key, by `KEY_PICK`; with no key pressed PC stays, `run` is `WaitingForKey` and the outcome
is `Blocked`. The test is on the level of the keypad (D14, log 14). -/
def execLdVxK (x : Reg) (s : State) : Result :=
  match keyPick (pressedKeys s.keys) with
  | none => .next (s.finish s.pc .waitingForKey .blocked)
  | some k => goOn (s.setReg x (BitVec.ofNat 8 k.val))

end Sys2Proof.Machine
end

