-- ==== Sys2Proof/Machine/Tick.lean ====
section
/-! DEFINITION. The instruction tick (30_encoding.md R81): fetch, decode, execute, commit; and what a held fault does to it. -/

namespace Sys2Proof.Machine

/-- Fetch, decode and execute the instruction at PC. The order is the error priority of 60_exceptions.md R234: fetch range,
unknown word, the instruction's own error. -/
def runAtPc (s : State) : Result :=
  match fetch s with
  | .error e => raise e s
  | .ok w =>
    match decodeWord w with
    | .unknown raw => raise (.unknownInstruction raw) s
    | .instr i => exec i s

/-- The instruction tick. While faulted it changes nothing and returns the held error again (60_exceptions.md R233); otherwise it
clears `loadAdmitted`, "applied whatever the tick's end", and runs one instruction. A tick in `WaitingForKey` is an ordinary tick
(30_encoding.md R84). -/
def instructionTick (s : State) : Result :=
  match s.run with
  | .faulted e => .next (s.answer (.tick (.error e)))
  | .running => runAtPc s.closeLoad
  | .waitingForKey => runAtPc s.closeLoad

end Sys2Proof.Machine
end

