-- ==== Sys2Proof/Machine/HostCalls.lean ====
section
/-! DEFINITION. The other five entry points of the block (00_scope.md R6), the sound output, and which of the six a host call
runs. Each is one atomic transaction (20_memory.md R57). -/

namespace Sys2Proof.Machine

/-- A timer after a timer tick: decremented if above 0, and a timer at 0 stays 0 (60_exceptions.md R239). -/
def countDown (timer : Byte) : Byte := if 0 < timer.toNat then timer - 1 else timer

/-- The sound edge a timer tick reports and the latch after it, from ST and the latch when the tick began (60_exceptions.md R241;
D23, log 19). -/
def soundEdge (st0 : Byte) (latch : Bool) : TimerOutcome × Bool :=
  if st0 = 1 then (.soundStopped, false)
  else if st0 = 0 ∧ latch = true then (.soundStopped, false)
  else if 2 ≤ st0.toNat ∧ latch = false then (.soundStarted, true)
  else (.noChange, latch)

/-- The timer tick, in every operating state (60_exceptions.md R239, R242). -/
def timerTick (s : State) : Result :=
  .next { s with
    dt := countDown s.dt
    st := countDown s.st
    soundLatch := (soundEdge s.st s.soundLatch).2
    result := .timer (soundEdge s.st s.soundLatch).1 }

/-- ROM load (70_reset_and_hazards.md R274, R275), refused while not admitted (R276; D25, log 18). -/
def loadRom (rom : List Byte) (s : State) : Result :=
  if s.loadAdmitted = true then
    if Config.romMax < rom.length then .next (s.answer (.load .romTooLarge))
    else .next { s with
      mem := s.mem.writeBlock Config.romBase rom
      loadAdmitted := false
      result := .load .success }
  else .refused .loadNotAdmitted

/-- Reset, in any state (70_reset_and_hazards.md R272, R273): the spec's state as at construction. The ports and the draw counter
are not the block's state and stay (log 5). -/
def resetCall (s : State) : Result :=
  .next { State.reset with keys := s.keys, calls := s.calls, draws := s.draws }

/-- Framebuffer read: a snapshot, no change (60_exceptions.md R244). -/
def framebufferRead (s : State) : Result := .next (s.answer (.snapshot s.fb))

/-- Keypad write: the flags the next ticks read (60_exceptions.md R243; log 2). -/
def keypadWrite (keys : Keypad) (s : State) : Result := .next { s with keys := keys, result := .nothing }

/-- The sound output is on exactly while ST != 0 (60_exceptions.md R245). -/
def State.soundOn (s : State) : Bool := s.st != 0

/-- Run one entry-point call. -/
def runCall (c : HostCall) (s : State) : Result :=
  match c with
  | .tick => instructionTick s
  | .timerTick => timerTick s
  | .load rom => loadRom rom s
  | .reset => resetCall s
  | .framebufferRead => framebufferRead s
  | .keypadWrite keys => keypadWrite keys s

end Sys2Proof.Machine
end

