-- ==== Sys2Proof/Machine/Step.lean ====
section
/-! DEFINITION. One step of the machine: the host's next entry-point call (60_exceptions.md R249), and where the host's checks
place an instruction word. -/

namespace Sys2Proof.Machine

/-- The next listed call; with none listed, an instruction tick (log 1: DESIGN CHOICE, unsafe). -/
def step (s : State) : Host.Outcome State Fault Refusal :=
  match s.calls with
  | [] => instructionTick s
  | c :: rest => runCall c (s.withCalls rest)

/-- The calls that make an instruction tick the very next one. -/
def tickNext : List HostCall → List HostCall
  | [] => []
  | c :: rest => .tick :: c :: rest

/-- A run state that lets a tick run an instruction. -/
def unfaulted : RunState → RunState
  | .faulted _ => .running
  | .running => .running
  | .waitingForKey => .waitingForKey

/-- A PC that can be fetched from: the state's own, or the entry point where it cannot (30_encoding.md R81). -/
def fetchablePc (pc : Word) : Word := if pc.toNat + 2 ≤ Config.memSize then pc else entryPc

/-- The state whose very next step fetches and runs the table word `w` (log 23): the word big-endian at PC, an instruction tick
next, no held fault. -/
def State.withFetchWord (s : State) (nbits w : Nat) : State :=
  { s with
    mem := (s.mem.write (fetchablePc s.pc).toNat (highByte (tableWord nbits w))).write ((fetchablePc s.pc).toNat + 1)
      (lowByte (tableWord nbits w))
    pc := fetchablePc s.pc
    run := unfaulted s.run
    calls := tickNext s.calls }

end Sys2Proof.Machine
end

