-- ==== Sys2Proof/Safety.lean ====
section
/-! DEFINITION. The words claims are stated in: the parts of a state and what "unchanged" means for each, how an instruction
completes or raises, what the rules let an instruction write, and the invariants. -/

namespace Sys2Proof

open Machine

/-! Parts of a state and frames. -/

/-- The fields of State, by name. -/
inductive Part where
  | mem | v | i | pc | stack | sp | dt | st | fb | run | soundLatch | loadAdmitted | keys | calls | result | draws
  deriving DecidableEq, Repr

/-- A part reads the same in two states: memory byte by byte, registers and pixels one by one. -/
def Part.same (s t : State) : Part → Prop
  | .mem => ∀ a, t.mem.byte a = s.mem.byte a
  | .v => ∀ r, t.reg r = s.reg r
  | .i => t.i = s.i
  | .pc => t.pc = s.pc
  | .stack => ∀ j : Fin 16, t.stack[j] = s.stack[j]
  | .sp => t.sp = s.sp
  | .dt => t.dt = s.dt
  | .st => t.st = s.st
  | .fb => ∀ px py, t.fb.pixel px py = s.fb.pixel px py
  | .run => t.run = s.run
  | .soundLatch => t.soundLatch = s.soundLatch
  | .loadAdmitted => t.loadAdmitted = s.loadAdmitted
  | .keys => ∀ k : Fin 16, t.keys[k] = s.keys[k]
  | .calls => t.calls = s.calls
  | .result => t.result = s.result
  | .draws => t.draws = s.draws

/-- Every part outside `changed` reads the same. -/
def UnchangedBut (changed : List Part) (s t : State) : Prop := ∀ p, p ∉ changed → p.same s t

/-- Every register outside `written` is unchanged. -/
def RegsUnchangedBut (written : List Reg) (s t : State) : Prop := ∀ r, r ∉ written → t.reg r = s.reg r

/-- Every byte of memory outside the `n` bytes from `a` reads as before. -/
def MemUnchangedOutside (a n : Nat) (s t : State) : Prop :=
  ∀ b, b < a ∨ a + n ≤ b → t.mem.byte b = s.mem.byte b

/-! How a tick's instruction ends. -/

/-- The error a faulted engine holds. -/
def Machine.State.heldFault (s : State) : Option VmError :=
  match s.run with
  | .faulted e => some e
  | .running => none
  | .waitingForKey => none

/-- The next step is an instruction tick. -/
abbrev Machine.State.tickIsNext (s : State) : Prop := s.calls.head?.getD .tick = .tick

/-- `t` is `s` after an instruction that completes with outcome `out`: `run` is `Running`, the outcome is reported, and beyond PC
only the parts `changed` may differ. -/
structure Completes (s t : State) (out : TickOutcome) (changed : List Part) : Prop where
  running : t.run = .running
  reported : t.result = .tick out
  frame : UnchangedBut ([.pc, .run, .result] ++ changed) s t

/-- `r` is `s` after error entry with `e`: the engine is faulted with `e`, `e` is reported, everything else, PC included, is as
before (60_exceptions.md R232). -/
def Raises (s : State) (e : VmError) (r : Result) : Prop :=
  ∃ t, r = .next t ∧ t.run = .faulted e ∧ t.result = .tick (.error e) ∧ UnchangedBut [.run, .result] s t

/-- The instruction completes, sets register `x` to `value` and changes no other register, and goes on at `PC + 2`. -/
def SetsReg (ins : Instr) (s : State) (x : Reg) (value : Nat) : Prop :=
  ∃ t, exec ins s = .next t ∧ (t.reg x).toNat = value ∧ RegsUnchangedBut [x] s t ∧
    t.pc.toNat = (s.pc.toNat + 2) % 65536 ∧ Completes s t .continued [.v]

/-- The instruction completes, sets VF to 1 or 0 as `flag` holds or not, sets `x` to `value` where `x` is not VF, changes no other
register, and goes on at `PC + 2`. -/
def SetsRegAndFlag (ins : Instr) (s : State) (x : Reg) (value : Nat) (flag : Prop) : Prop :=
  ∃ t, exec ins s = .next t ∧ (x ≠ 15 → (t.reg x).toNat = value) ∧ (flag → t.reg 15 = 1) ∧ (¬flag → t.reg 15 = 0) ∧
    RegsUnchangedBut [x, 15] s t ∧ t.pc.toNat = (s.pc.toNat + 2) % 65536 ∧ Completes s t .continued [.v]

/-- The instruction completes, sets I to `value`, changes nothing else, and goes on at `PC + 2`. -/
def SetsIndex (ins : Instr) (s : State) (value : Nat) : Prop :=
  ∃ t, exec ins s = .next t ∧ t.i.toNat = value ∧ t.pc.toNat = (s.pc.toNat + 2) % 65536 ∧ Completes s t .continued [.i]

/-- The instruction completes, changes nothing but PC, and goes on at `PC + 4` where `condition` holds, else at `PC + 2`. -/
def SkipsWhen (condition : Prop) (ins : Instr) (s : State) : Prop :=
  ∃ t, exec ins s = .next t ∧ (condition → t.pc.toNat = (s.pc.toNat + 4) % 65536) ∧
    (¬condition → t.pc.toNat = (s.pc.toNat + 2) % 65536) ∧ Completes s t .continued []

/-! What the rules let an instruction write. -/

/-- The parts an instruction that completes may change beside PC, `run` and the reported outcome (10_state.md R23, R25, R26, R28,
R29, R33; 20_memory.md R51). -/
def Instr.footprint : Instr → List Part
  | .cls => [.fb]
  | .ret => [.sp]
  | .jp _ => []
  | .call _ => [.stack, .sp]
  | .seImm _ _ => []
  | .sneImm _ _ => []
  | .seReg _ _ => []
  | .ldImm _ _ => [.v]
  | .addImm _ _ => [.v]
  | .ldReg _ _ => [.v]
  | .orReg _ _ => [.v]
  | .andReg _ _ => [.v]
  | .xorReg _ _ => [.v]
  | .addReg _ _ => [.v]
  | .subReg _ _ => [.v]
  | .shr _ _ => [.v]
  | .subnReg _ _ => [.v]
  | .shl _ _ => [.v]
  | .sneReg _ _ => []
  | .ldI _ => [.i]
  | .jpV0 _ => []
  | .rnd _ _ => [.v, .draws]
  | .drw _ _ _ => [.fb, .v]
  | .skp _ => []
  | .sknp _ => []
  | .ldVxDt _ => [.v]
  | .ldVxK _ => [.v]
  | .ldDtVx _ => [.dt]
  | .ldStVx _ => [.st]
  | .addI _ => [.i]
  | .ldF _ => [.i]
  | .ldB _ => [.mem]
  | .ldMemVx _ => [.mem]
  | .ldVxMem _ => [.v]

/-- The registers an instruction may write (the "writes" column of 10_state.md R23; VF is V15). -/
def Instr.writtenRegs : Instr → List Reg
  | .cls => []
  | .ret => []
  | .jp _ => []
  | .call _ => []
  | .seImm _ _ => []
  | .sneImm _ _ => []
  | .seReg _ _ => []
  | .ldImm x _ => [x]
  | .addImm x _ => [x]
  | .ldReg x _ => [x]
  | .orReg x _ => [x]
  | .andReg x _ => [x]
  | .xorReg x _ => [x]
  | .addReg x _ => [x, 15]
  | .subReg x _ => [x, 15]
  | .shr x _ => [x, 15]
  | .subnReg x _ => [x, 15]
  | .shl x _ => [x, 15]
  | .sneReg _ _ => []
  | .ldI _ => []
  | .jpV0 _ => []
  | .rnd x _ => [x]
  | .drw _ _ _ => [15]
  | .skp _ => []
  | .sknp _ => []
  | .ldVxDt x => [x]
  | .ldVxK x => [x]
  | .ldDtVx _ => []
  | .ldStVx _ => []
  | .addI _ => []
  | .ldF _ => []
  | .ldB _ => []
  | .ldMemVx _ => []
  | .ldVxMem x => (List.finRange 16).filter fun k => decide (k.val ≤ x.val)

/-- The instructions that raise nothing, in any state (the list of 60_exceptions.md R231). -/
def Instr.raisesNothing : Instr → Bool
  | .cls | .jp _ | .jpV0 _ | .seImm _ _ | .sneImm _ _ | .seReg _ _ | .sneReg _ _ => true
  | .ldImm _ _ | .ldReg _ _ | .addImm _ _ | .orReg _ _ | .andReg _ _ | .xorReg _ _ | .addReg _ _ | .subReg _ _ | .shr _ _ => true
  | .subnReg _ _ | .shl _ _ | .rnd _ _ | .ldI _ | .addI _ | .ldF _ | .ldVxDt _ | .ldDtVx _ | .ldStVx _ | .ldVxK _ => true
  | .ret | .call _ | .drw _ _ _ | .skp _ | .sknp _ | .ldB _ | .ldMemVx _ | .ldVxMem _ => false

/-- A sprite of `n` rows from memory at I, drawn from column `x0` and row `y0`, has its bit set at the pixel: some row r and column
c meet it, and bit 7 - c of the row's byte is 1 (43_display.md R191). -/
def SpriteCovers (s : State) (x0 y0 : Byte) (n : Nat) (px : Fin 64) (py : Fin 32) : Prop :=
  ∃ r c : Nat, r < n ∧ c < 8 ∧ px.val = (x0.toNat + c) % 64 ∧ py.val = (y0.toNat + r) % 32 ∧
    (s.mem.byte (s.i.toNat + r)).getLsbD (7 - c) = true

/-- The operands of an instruction are the fields of its word, as numbers: x = w[11:8], y = w[7:4], n = w[3:0], nn = w[7:0],
nnn = w[11:0], "straight from its bits" (30_encoding.md R71, R73). -/
def Instr.operandsAreFields (w : Nat) : Instr → Prop
  | .cls | .ret => True
  | .jp nnn | .call nnn | .ldI nnn | .jpV0 nnn => nnn.toNat = w % 4096
  | .seImm x nn | .sneImm x nn | .ldImm x nn | .addImm x nn | .rnd x nn => x.val = w / 256 % 16 ∧ nn.toNat = w % 256
  | .seReg x y | .ldReg x y | .orReg x y | .andReg x y | .xorReg x y | .addReg x y | .subReg x y | .shr x y | .subnReg x y
  | .shl x y | .sneReg x y => x.val = w / 256 % 16 ∧ y.val = w / 16 % 16
  | .drw x y n => x.val = w / 256 % 16 ∧ y.val = w / 16 % 16 ∧ n = w % 16
  | .skp x | .sknp x | .ldVxDt x | .ldVxK x | .ldDtVx x | .ldStVx x | .addI x | .ldF x | .ldB x | .ldMemVx x | .ldVxMem x =>
    x.val = w / 256 % 16

/-! Invariants of every step. -/

/-- Memory has its canonical form. -/
abbrev MemoryCanonical (s : State) : Prop := s.mem.wf = true

/-- While waiting for a key, the word at PC "is still the `LD VX, K` that blocked", and no ROM load can change it
(30_encoding.md R84). -/
def WaitsAtKeyWait (s : State) : Prop :=
  s.run = .waitingForKey → s.loadAdmitted = false ∧ ∃ w x, fetch s = .ok w ∧ decodeWord w = .instr (.ldVxK x)

/-- A held fault is precise: running what PC names again would raise that same error from this very state (60_exceptions.md R232
"the state is that before the raising instruction"). -/
def HeldFaultIsPrecise (s : State) : Prop :=
  ∀ e, s.run = .faulted e → s.loadAdmitted = false ∧ runAtPc s = .next { s with result := .tick (.error e) }

/-- PC never passes the farthest jump (`JP V0`: 0xFFF + 0xFF) and no return address passes 0x1000 (40_control_flow.md R103, R104),
so PC arithmetic never reaches its wrap (10_state.md R24). -/
def ControlFlowBounded (s : State) : Prop :=
  s.pc.toNat ≤ 0x10FE ∧ ∀ j : Fin 16, s.stack[j].toNat ≤ 0x1000

end Sys2Proof
end

