-- ==== Sys2Proof/Certificates/Slice0/Obligations.lean ====
section
/-! DEFINITION. The statements about the model, for the provers. Each docstring names the rule of spec/ it formalises and, where a
clause rests on a choice of the spec or of the model, the decision D<n> and the log entry. -/

open Sys2Proof Sys2Proof.Machine

/-! Reset, the tick, the step. -/

/-- What construction and reset leave (10_state.md R37, the spec's own choices D5 to D9, D23, D25; logs 6, 7): the glyph table at
the base of memory and 0x00 elsewhere, every register 0, PC at the entry point, an empty stack, a clear framebuffer, running. -/
def Obligations.ResetStateHoldsSpecValues : Prop :=
  (∀ a, a < 80 → State.reset.mem.byte a = glyphRom[a]?.getD 0) ∧ glyphRom.length = 80 ∧
  (∀ a, 80 ≤ a → State.reset.mem.byte a = 0) ∧ State.reset.mem = [] ∧
  (∀ r, State.reset.reg r = 0) ∧ State.reset.i = 0 ∧ State.reset.pc = 0x200 ∧
  (∀ j : Fin 16, State.reset.stack[j] = 0) ∧ State.reset.sp = 0 ∧ State.reset.dt = 0 ∧ State.reset.st = 0 ∧
  (∀ px py, State.reset.fb.pixel px py = false) ∧ State.reset.run = .running ∧
  State.reset.soundLatch = false ∧ State.reset.loadAdmitted = true

/-- R271: a reset call, in any state, leaves the construction state in every part of the block's own record (10_state.md R20); what
it does to the ports and the draw counter, which are the model's own, is not claimed (log 5). -/
def Obligations.ResetCallRestoresConstructionState : Prop :=
  ∀ s : State, s.calls.head? = some .reset →
    ∃ t, step s = .next t ∧ UnchangedBut [.keys, .calls, .result, .draws] State.reset t

/-- The tick runs the instruction at PC (30_encoding.md R81): where the word at PC, big-endian, decodes to `i`, the step is `exec i`
on the state with the call taken and `loadAdmitted` cleared. With no call listed the step is a tick (log 1: the model's choice). -/
def Obligations.StepRunsDecodedInstruction : Prop :=
  ∀ (s : State) (ins : Instr), s.tickIsNext → s.heldFault = none → s.pc.toNat + 2 ≤ 4096 →
    decodeWord (wordOfBytes (s.mem.byte s.pc.toNat) (s.mem.byte (s.pc.toNat + 1))) = .instr ins →
    step s = exec ins { s with calls := s.calls.tail, loadAdmitted := false }

/-- A tick whose fetch runs past memory raises `IndexOutOfRange(Fetch, max(PC, 4096))`, and one that fetches a word matching no
pattern raises `UnknownInstruction` with that word (30_encoding.md R76, R81; D3, D4, D17, D19, D21; logs 10, 11, 12). With no call
listed the step is a tick (log 1: the model's choice). -/
def Obligations.UnfetchableOrUnknownWordRaises : Prop :=
  ∀ s : State, s.tickIsNext → s.heldFault = none →
    (4096 < s.pc.toNat + 2 →
      Raises { s with calls := s.calls.tail, loadAdmitted := false }
        (.indexOutOfRange .fetch (max s.pc.toNat 4096)) (step s)) ∧
    (∀ raw, s.pc.toNat + 2 ≤ 4096 →
      decodeWord (wordOfBytes (s.mem.byte s.pc.toNat) (s.mem.byte (s.pc.toNat + 1))) = .unknown raw →
      raw = wordOfBytes (s.mem.byte s.pc.toNat) (s.mem.byte (s.pc.toNat + 1)) ∧
      Raises { s with calls := s.calls.tail, loadAdmitted := false } (.unknownInstruction raw) (step s))

/-- The faulted state is absorbing for ticks (60_exceptions.md R233; D20, log 11): any number of ticks changes nothing but the
list of calls and returns the held error. A step past the end of the list is a tick too (log 1: the model's choice). -/
def Obligations.HeldFaultIsReturnedByEveryTick : Prop :=
  ∀ (n m : Nat) (s : State) (e : VmError), s.run = .faulted e → s.calls = List.replicate m .tick →
    core.run (n + 1) s =
      .next { s with calls := List.replicate (m - (n + 1)) .tick, result := .tick (.error e) }

/-- "Only reset leaves `Faulted`" (10_state.md R30, 60_exceptions.md R233, R242; D20, D22, logs 11, 19): any other call keeps the
error and everything but the timers, the sound latch and the ports. With no call listed the step is a tick (log 1: the model's
choice). `loadAdmitted` is false in every faulted state a run reaches (the invariant HeldFaultIsPrecise). -/
def Obligations.OnlyResetLeavesFaulted : Prop :=
  ∀ (s t : State) (e : VmError), s.run = .faulted e → s.loadAdmitted = false → s.calls.head? ≠ some .reset →
    step s = .next t →
    t.run = .faulted e ∧ UnchangedBut [.dt, .st, .soundLatch, .keys, .calls, .result] s t

/-- The core never stops on program data: a step answers a next state except on a ROM load that is not admitted, which is refused
(60_exceptions.md R232, 70_reset_and_hazards.md R276; D25). The model's own: a state with no call listed has a step, a tick (log
1, DESIGN CHOICE); a tick that raises is a next state (log 11, DEDUCED); a load of any length is refused (log 18, the model's
reading of R274 and R276). -/
def Obligations.StepStopsOnlyOnUnadmittedLoad : Prop :=
  ∀ s : State, (∃ t, step s = .next t) ∨
    (∃ rom rest, s.calls = .load rom :: rest ∧ s.loadAdmitted = false ∧ step s = .refused .loadNotAdmitted)

/-! Whole-machine rules over all instructions. -/

/-- An instruction changes nothing beyond PC, `run`, the reported outcome and what its rule names: memory only LD B and LD [I], the
framebuffer only CLS and DRW, the stack and SP only CALL and RET, I only LD I, ADD I, LD F, the timers only LD DT and LD ST, the
keypad none (10_state.md R23 to R29, R33; 20_memory.md R51; 60_exceptions.md R243; D11, log 16). -/
def Obligations.InstructionChangesOnlyItsFootprint : Prop :=
  ∀ (ins : Instr) (s t : State), exec ins s = .next t → UnchangedBut ([.pc, .run, .result] ++ ins.footprint) s t

/-- General registers change only where the "writes" column of 10_state.md R23 says. -/
def Obligations.RegistersChangeOnlyWhereListed : Prop :=
  ∀ (ins : Instr) (s t : State), exec ins s = .next t → RegsUnchangedBut ins.writtenRegs s t

/-- "No other instruction induces suspension" (10_state.md R30, 60_exceptions.md R236, R248): only the key-wait enters
`WaitingForKey`, only with no key pressed, and PC stays. -/
def Obligations.OnlyKeyWaitSuspends : Prop :=
  ∀ (ins : Instr) (s t : State), exec ins s = .next t → t.run = .waitingForKey →
    (∃ x, ins = .ldVxK x) ∧ (∀ k : Fin 16, s.keys[k] = false) ∧ t.pc = s.pc

/-- (60_exceptions.md R231, an inference of the spec's own) The instructions of its list complete in every state and raise
nothing. -/
def Obligations.ListedInstructionsNeverRaise : Prop :=
  ∀ (ins : Instr) (s : State), ins.raisesNothing = true → ∃ t, exec ins s = .next t ∧ t.heldFault = none

/-- Errors are precise (60_exceptions.md R232; D19, log 11): an instruction that ends faulted has changed `run` and the reported
outcome and nothing else. -/
def Obligations.ErrorsArePrecise : Prop :=
  ∀ (ins : Instr) (s t : State) (e : VmError), exec ins s = .next t → t.run = .faulted e →
    t = { s with run := .faulted e, result := .tick (.error e) }

/-! Decode and encode (patterns: D1, log 8: taken by the spec from the CHIP-8 convention). -/

/-- Decode and encode agree on every well-formed instruction, as a word and as bytes in memory order (30_encoding.md R70, R73, R77;
20_memory.md R54). -/
def Obligations.DecodeOfEncodeIsTheInstruction : Prop :=
  ∀ ins : Instr, ins.wellFormed = true →
    decodeWord (encode ins) = .instr ins ∧ ∀ rest, decodeBytes (encodeBytes ins ++ rest) = .ok (ins, rest)

/-- "it must still be carried so that a word re-encodes to itself" (30_encoding.md R73): a word that decodes to an instruction is
that instruction's word, and the instruction is well-formed. -/
def Obligations.DecodedWordReencodesToItself : Prop :=
  ∀ (w : Word) (ins : Instr), decodeWord w = .instr ins → encode ins = w ∧ ins.wellFormed = true

/-- Decoding is total and follows the opcode table (30_encoding.md R75, R76, R78; D1 to D4, logs 8, 9, 10): a word that decodes to
an instruction selects exactly one row, that instruction's own, and a word that decodes to none is unknown, carried raw, and
selects no row. -/
def Obligations.DecodeFollowsTheOpcodeTable : Prop :=
  ∀ w : Word,
    (∀ ins, decodeWord w = .instr ins → (opcodeTable.filter fun r => r.selects w) = [ins.row]) ∧
    ((∀ ins, decodeWord w ≠ .instr ins) → decodeWord w = .unknown w ∧ (opcodeTable.filter fun r => r.selects w) = [])

/-- The operands of a decoded instruction are the fields of its word (30_encoding.md R71, R73, R75, R77; D1, log 8). -/
def Obligations.DecodedOperandsAreTheFields : Prop :=
  ∀ (w : Word) (ins : Instr), decodeWord w = .instr ins → ins.operandsAreFields w.toNat

/-- Words written out from the patterns of 30_encoding.md R75 decode to the instructions they stand for, one or more per family. -/
def Obligations.WrittenOutWordsDecode : Prop :=
  decodeWord 0b0000000011100000#16 = .instr .cls ∧ decodeWord 0b0000000011101110#16 = .instr .ret ∧
  decodeWord 0b0010001100000000#16 = .instr (.call 0x300) ∧ decodeWord 0b0011001100010000#16 = .instr (.seImm 3 0x10) ∧
  decodeWord 0b0110000000001010#16 = .instr (.ldImm 0 0x0A) ∧ decodeWord 0b1000000000010100#16 = .instr (.addReg 0 1) ∧
  decodeWord 0b1010001100000000#16 = .instr (.ldI 0x300) ∧ decodeWord 0b1101000000010101#16 = .instr (.drw 0 1 5) ∧
  decodeWord 0b1110010110011110#16 = .instr (.skp 5) ∧ decodeWord 0b1111010100001010#16 = .instr (.ldVxK 5) ∧
  decodeWord 0b1111001001100101#16 = .instr (.ldVxMem 2) ∧ decodeWord 0x0000#16 = .unknown 0x0000

/-! Control transfer. -/

/-- R102: `JP NNN` sets PC to NNN and changes nothing else. -/
def Obligations.JumpSetsPcAndNothingElse : Prop :=
  ∀ (nnn : Addr12) (s : State), ∃ t, exec (.jp nnn) s = .next t ∧ t.pc.toNat = nnn.toNat ∧ Completes s t .continued []

/-- `CALL NNN` (40_control_flow.md R103): with room on the stack it pushes `(PC + 2) mod 2^16`, raises SP by one and goes to NNN;
with SP = 16 it raises `StackOverflow` and writes nothing (precise errors: D19, log 11; own stack array: D31, log 21). -/
def Obligations.CallPushesReturnAddress : Prop :=
  ∀ (nnn : Addr12) (s : State),
    (s.sp.val < 16 → ∃ t, exec (.call nnn) s = .next t ∧ t.pc.toNat = nnn.toNat ∧ t.sp.val = s.sp.val + 1 ∧
      (∀ j : Fin 16, (j.val = s.sp.val → t.stack[j].toNat = (s.pc.toNat + 2) % 65536) ∧
        (j.val ≠ s.sp.val → t.stack[j] = s.stack[j])) ∧ Completes s t .continued [.stack, .sp]) ∧
    (s.sp.val = 16 → Raises s .stackOverflow (exec (.call nnn) s))

/-- `RET` (40_control_flow.md R101): pops `stack[SP - 1]` into PC and leaves the entry in `stack`; with SP = 0 it raises
`StackUnderflow` (D19, log 11; stale entries kept: D31, log 21). -/
def Obligations.ReturnPopsIntoPc : Prop :=
  ∀ s : State,
    (∀ j : Fin 16, s.sp.val = j.val + 1 → ∃ t, exec .ret s = .next t ∧ t.pc = s.stack[j] ∧ t.sp.val = j.val ∧
      Completes s t .continued [.sp]) ∧
    (s.sp.val = 0 → Raises s .stackUnderflow (exec .ret s))

/-- A return right after a call comes back to the instruction after the call, with SP as it was (40_control_flow.md R101, R103: the
popped address "is the one `CALL` pushed"). -/
def Obligations.ReturnAfterCallComesBack : Prop :=
  ∀ (nnn : Addr12) (s : State), s.sp.val < 16 →
    ∃ t u, exec (.call nnn) s = .next t ∧ exec .ret t = .next u ∧ u.pc = s.pc + 2 ∧
      Completes s u .continued [.stack]

/-- `JP V0, NNN` (40_control_flow.md R104): PC = NNN + V0, never wrapping, not masked to 12 bits (D18, log 12). -/
def Obligations.JumpWithOffsetAddsV0 : Prop :=
  ∀ (nnn : Addr12) (s : State),
    ∃ t, exec (.jpV0 nnn) s = .next t ∧ t.pc.toNat = nnn.toNat + (s.reg 0).toNat ∧ Completes s t .continued []

/-- R105, R107, R108: the skips on VX = NN, VX = VY, VX ≠ VY. -/
def Obligations.RegisterSkips : Prop :=
  ∀ (x y : Reg) (nn : Byte) (s : State),
    SkipsWhen ((s.reg x).toNat = nn.toNat) (.seImm x nn) s ∧
    SkipsWhen ((s.reg x).toNat = (s.reg y).toNat) (.seReg x y) s ∧
    SkipsWhen ((s.reg x).toNat ≠ (s.reg y).toNat) (.sneReg x y) s

/-- `SNE VX, NN` (40_control_flow.md R106), which the spec includes by its own choice (D2, log 9). -/
def Obligations.SkipNotEqualImmediate : Prop :=
  ∀ (x : Reg) (nn : Byte) (s : State), SkipsWhen ((s.reg x).toNat ≠ nn.toNat) (.sneImm x nn) s

/-- `SKP VX` and `SKNP VX` (40_control_flow.md R109, R110): the key numbered by VX's value; a value above 15 raises
`IndexOutOfRange(Key, VX)` (D15, log 13) and changes nothing else (60_exceptions.md R232; precise errors and payload D19, D21, log
11). -/
def Obligations.KeySkipsReadTheKeyVxNames : Prop :=
  ∀ (x : Reg) (s : State),
    (∀ k : Fin 16, (s.reg x).toNat = k.val →
      SkipsWhen (s.keys[k] = true) (.skp x) s ∧ SkipsWhen (s.keys[k] = false) (.sknp x) s) ∧
    (16 ≤ (s.reg x).toNat →
      Raises s (.indexOutOfRange .key (s.reg x).toNat) (exec (.skp x) s) ∧
      Raises s (.indexOutOfRange .key (s.reg x).toNat) (exec (.sknp x) s))

/-! Register arithmetic, logic, shifts, random. -/

/-- R131 to R136: loads, the immediate add with 8-bit wraparound, and the bitwise operations; no flag, no other register. -/
def Obligations.LoadsAddImmediateAndLogic : Prop :=
  ∀ (x y : Reg) (nn : Byte) (s : State),
    SetsReg (.ldImm x nn) s x nn.toNat ∧
    SetsReg (.addImm x nn) s x (((s.reg x).toNat + nn.toNat) % 256) ∧
    SetsReg (.ldReg x y) s x (s.reg y).toNat ∧
    SetsReg (.orReg x y) s x ((s.reg x).toNat ||| (s.reg y).toNat) ∧
    SetsReg (.andReg x y) s x ((s.reg x).toNat &&& (s.reg y).toNat) ∧
    SetsReg (.xorReg x y) s x ((s.reg x).toNat ^^^ (s.reg y).toNat)

/-- `ADD VX, VY`, `SUB VX, VY`, `SUBN VX, VY` (41_alu.md R137, R138, R140): the result mod 256 to VX, carry or no-borrow of the
pre-instruction values to VF; where X = F VF holds the flag (R130; D10, log 15: the spec's own choice). -/
def Obligations.AddAndSubtractWithFlag : Prop :=
  ∀ (x y : Reg) (s : State),
    SetsRegAndFlag (.addReg x y) s x (((s.reg x).toNat + (s.reg y).toNat) % 256) (255 < (s.reg x).toNat + (s.reg y).toNat) ∧
    SetsRegAndFlag (.subReg x y) s x (((s.reg x).toNat + 256 - (s.reg y).toNat) % 256) ((s.reg y).toNat ≤ (s.reg x).toNat) ∧
    SetsRegAndFlag (.subnReg x y) s x (((s.reg y).toNat + 256 - (s.reg x).toNat) % 256) ((s.reg x).toNat ≤ (s.reg y).toNat)

/-- `SHR VX` and `SHL VX` (41_alu.md R139, R141): VX halved or doubled mod 256, VF the bit shifted out, the y field ignored; where
X = F VF holds the flag (R130; D10, log 15: the spec's own choice). -/
def Obligations.ShiftsByOneIgnoreVy : Prop :=
  ∀ (x y z : Reg) (s : State),
    SetsRegAndFlag (.shr x y) s x ((s.reg x).toNat / 2) ((s.reg x).toNat % 2 = 1) ∧
    SetsRegAndFlag (.shl x y) s x ((s.reg x).toNat * 2 % 256) (128 ≤ (s.reg x).toNat) ∧
    exec (.shr x y) s = exec (.shr x z) s ∧ exec (.shl x y) s = exec (.shl x z) s

/-- `RND VX, NN` (41_alu.md R142): VX is a fresh free byte masked by NN, so every bit outside NN is 0; the draw is the opaque
`Config.randomByte` at the model's own draw counter (D26, log 4), and nothing is claimed of its value. -/
def Obligations.RandomIsMaskedFreshByte : Prop :=
  ∀ (x : Reg) (nn : Byte) (s : State),
    ∃ t, exec (.rnd x nn) s = .next t ∧ t.reg x = Config.randomByte s.draws &&& nn ∧ t.draws = s.draws + 1 ∧
      (∀ j, nn.getLsbD j = false → (t.reg x).getLsbD j = false) ∧ RegsUnchangedBut [x] s t ∧
      t.pc.toNat = (s.pc.toNat + 2) % 65536 ∧ Completes s t .continued [.v, .draws]

/-! Index register and memory transfers. -/

/-- R171: `LD I, NNN` sets I to NNN, any 12-bit value, and writes no register or memory. -/
def Obligations.LoadIndexImmediate : Prop :=
  ∀ (nnn : Addr12) (s : State), SetsIndex (.ldI nnn) s nnn.toNat

/-- `ADD I, VX`, `LD F, VX` (42_index_memory.md R172, R173): I + VX mod 2^16 with no flag (D34, log 16); 5 times VX's low nibble
(glyphs from address 0: D5, log 7). -/
def Obligations.IndexRegisterArithmetic : Prop :=
  ∀ (x : Reg) (s : State),
    SetsIndex (.addI x) s ((s.i.toNat + (s.reg x).toNat) % 65536) ∧
    SetsIndex (.ldF x) s (5 * ((s.reg x).toNat % 16))

/-- `LD B, VX` (42_index_memory.md R174), in range: the digits at I, I + 1, I + 2, every other byte, I and every register as before
(D11, log 16), memory still canonical. -/
def Obligations.BcdStoresThreeDigits : Prop :=
  ∀ (x : Reg) (s : State), MemoryCanonical s → s.i.toNat + 3 ≤ 4096 →
    ∃ t, exec (.ldB x) s = .next t ∧
      (t.mem.byte (s.indexed 0)).toNat = (s.reg x).toNat / 100 ∧
      (t.mem.byte (s.indexed 1)).toNat = (s.reg x).toNat / 10 % 10 ∧
      (t.mem.byte (s.indexed 2)).toNat = (s.reg x).toNat % 10 ∧
      MemUnchangedOutside (s.indexed 0) 3 s t ∧ MemoryCanonical t ∧
      t.pc.toNat = (s.pc.toNat + 2) % 65536 ∧ Completes s t .continued [.mem]

/-- (42_index_memory.md R177, an inference of the spec's own) `LD B, VX`, then reading the three bytes back with `LD V2, [I]`,
gives digits h, t, o with 100h + 10t + o = VX, h at most 2, t and o at most 9. The read finds them because `LD B` leaves I
unchanged (D11, log 16: the spec's own choice). -/
def Obligations.BcdRoundTrip : Prop :=
  ∀ (x : Reg) (s : State), MemoryCanonical s → s.i.toNat + 3 ≤ 4096 →
    ∃ t u, exec (.ldB x) s = .next t ∧ exec (.ldVxMem 2) t = .next u ∧
      100 * (u.reg 0).toNat + 10 * (u.reg 1).toNat + (u.reg 2).toNat = (s.reg x).toNat ∧
      (u.reg 0).toNat ≤ 2 ∧ (u.reg 1).toNat ≤ 9 ∧ (u.reg 2).toNat ≤ 9

/-- `LD [I], VX` (42_index_memory.md R175), in range: V0..VX at I.., every other byte, every register and I as before (D11,
log 16), memory still canonical. -/
def Obligations.StoreWritesRegistersFromI : Prop :=
  ∀ (x : Reg) (s : State), MemoryCanonical s → s.i.toNat + (x.val + 1) ≤ 4096 →
    ∃ t, exec (.ldMemVx x) s = .next t ∧ (∀ k : Reg, k.val ≤ x.val → t.mem.byte (s.indexed k.val) = s.reg k) ∧
      MemUnchangedOutside (s.indexed 0) (x.val + 1) s t ∧ MemoryCanonical t ∧
      t.pc.toNat = (s.pc.toNat + 2) % 65536 ∧ Completes s t .continued [.mem]

/-- `LD VX, [I]` (42_index_memory.md R176), in range: V0..VX from I.., the registers above VX, memory and I as before (D11,
log 16). -/
def Obligations.LoadReadsRegistersFromI : Prop :=
  ∀ (x : Reg) (s : State), s.i.toNat + (x.val + 1) ≤ 4096 →
    ∃ t, exec (.ldVxMem x) s = .next t ∧
      (∀ k : Reg, (k.val ≤ x.val → t.reg k = s.mem.byte (s.indexed k.val)) ∧ (x.val < k.val → t.reg k = s.reg k)) ∧
      t.pc.toNat = (s.pc.toNat + 2) % 65536 ∧ Completes s t .continued [.v]

/-- A block load gives back what a block store stored, whatever the registers hold in between (42_index_memory.md R175, R176; D11,
log 16). -/
def Obligations.LoadAfterStoreRestoresRegisters : Prop :=
  ∀ (x : Reg) (s : State), MemoryCanonical s → s.i.toNat + (x.val + 1) ≤ 4096 →
    ∃ t, exec (.ldMemVx x) s = .next t ∧
      ∀ lost, ∃ u, exec (.ldVxMem x) { t with v := lost } = .next u ∧ ∀ k : Reg, k.val ≤ x.val → u.reg k = s.reg k

/-- A transfer or sprite fetch whose range leaves memory raises `IndexOutOfRange(kind, max(I, 4096))` and moves nothing
(20_memory.md R53, 42_index_memory.md R170; payload D21, precise errors D19; log 11). -/
def Obligations.TransfersOutOfRangeRaise : Prop :=
  ∀ (x y : Reg) (n : Nat) (s : State),
    (4096 < s.i.toNat + 3 → Raises s (.indexOutOfRange .bcd (max s.i.toNat 4096)) (exec (.ldB x) s)) ∧
    (4096 < s.i.toNat + (x.val + 1) →
      Raises s (.indexOutOfRange .store (max s.i.toNat 4096)) (exec (.ldMemVx x) s) ∧
      Raises s (.indexOutOfRange .load (max s.i.toNat 4096)) (exec (.ldVxMem x) s)) ∧
    (0 < n → 4096 < s.i.toNat + n →
      Raises s (.indexOutOfRange .sprite (max s.i.toNat 4096)) (exec (.drw x y n) s))

/-- Self-modifying code takes effect at once (20_memory.md R65, 70_reset_and_hazards.md R280; D27, log 20): V0 and V1 stored over
the next instruction are the next word fetched. -/
def Obligations.StoredWordIsFetchedNext : Prop :=
  ∀ (x : Reg) (s : State), MemoryCanonical s → 1 ≤ x.val → s.i.toNat + (x.val + 1) ≤ 4096 →
    s.i.toNat = s.pc.toNat + 2 →
    ∃ t, exec (.ldMemVx x) s = .next t ∧ fetch t = .ok (wordOfBytes (s.reg 0) (s.reg 1))

/-! Framebuffer. -/

/-- R190: `CLS` sets every pixel false, reports `Redraw` and changes nothing else, VF included. -/
def Obligations.ClearScreenClearsEveryPixel : Prop :=
  ∀ s : State, ∃ t, exec .cls s = .next t ∧ (∀ px py, t.fb.pixel px py = false) ∧
    t.pc.toNat = (s.pc.toNat + 2) % 65536 ∧ Completes s t .redraw [.fb]

/-- `DRW VX, VY, N` (43_display.md R191): exactly the pixels the sprite covers are toggled, wrapping on both axes, VF = 1 when one
of them was set and 0 otherwise, `Redraw` reported; with N = 0 I is not checked and nothing is covered (D12), bit 7 is the
leftmost pixel and rows go down (D13, log 17). -/
def Obligations.DrawXorsTheSprite : Prop :=
  ∀ (x y : Reg) (n : Nat) (s : State), (Instr.drw x y n).wellFormed = true → n = 0 ∨ s.i.toNat + n ≤ 4096 →
    ∃ t, exec (.drw x y n) s = .next t ∧
      (∀ px py, (SpriteCovers s (s.reg x) (s.reg y) n px py → t.fb.pixel px py = !s.fb.pixel px py) ∧
        (¬SpriteCovers s (s.reg x) (s.reg y) n px py → t.fb.pixel px py = s.fb.pixel px py)) ∧
      ((∃ px py, SpriteCovers s (s.reg x) (s.reg y) n px py ∧ s.fb.pixel px py = true) → t.reg 15 = 1) ∧
      ((∀ px py, SpriteCovers s (s.reg x) (s.reg y) n px py → s.fb.pixel px py = false) → t.reg 15 = 0) ∧
      RegsUnchangedBut [15] s t ∧ t.pc.toNat = (s.pc.toNat + 2) % 65536 ∧ Completes s t .redraw [.fb, .v]

/-- (43_display.md R192, an inference of the spec's own) The pixels of one sprite are pairwise distinct, so each is toggled at
most once, reading its pre-instruction value is the same as reading it as the loop goes, and the order of the loop does not
matter. -/
def Obligations.SpriteNeverOverlapsItself : Prop :=
  ∀ (x0 y0 : Byte) (n : Nat) (s : State), n ≤ 15 →
    (∀ r c r' c' : Nat, r < n → c < 8 → r' < n → c' < 8 →
      pixelColumn x0 c = pixelColumn x0 c' → pixelRow y0 r = pixelRow y0 r' → r = r' ∧ c = c') ∧
    (s.litPixels x0 y0 n).Nodup ∧
    (s.litPixels x0 y0 n).foldl (fun f p => f.setPixel p.1 p.2 (!f.pixel p.1 p.2)) s.fb =
      togglePixels s.fb (s.litPixels x0 y0 n) ∧
    ∀ order, order.Perm (s.litPixels x0 y0 n) → togglePixels s.fb order = togglePixels s.fb (s.litPixels x0 y0 n)

/-- Drawing twice cancels (43_display.md R191, R192, R193): a second `DRW` with the same I, sprite bytes, VX, VY and N, on the
framebuffer the first one left, gives back the framebuffer as it was before the first; its VF is 1 when some covered pixel was
clear before the first draw (so the first one set it), else 0. The case N = 0 and the pixels covered rest on D12 and D13 (log 17).
R193's own VF clause is wider: DrawingTwiceCancelsAsWritten, log 30. -/
def Obligations.DrawingTwiceCancels : Prop :=
  ∀ (x y : Reg) (n : Nat) (s : State), (Instr.drw x y n).wellFormed = true → n = 0 ∨ s.i.toNat + n ≤ 4096 →
    ∃ t, exec (.drw x y n) s = .next t ∧
      ∀ s' : State, Part.fb.same t s' → s'.i = s.i → s'.reg x = s.reg x → s'.reg y = s.reg y →
        (∀ r, r < n → s'.mem.byte (s.i.toNat + r) = s.mem.byte (s.i.toNat + r)) →
        ∃ u, exec (.drw x y n) s' = .next u ∧ Part.fb.same s u ∧
          ((∃ px py, SpriteCovers s (s.reg x) (s.reg y) n px py ∧ s.fb.pixel px py = false) → u.reg 15 = 1) ∧
          ((∀ px py, SpriteCovers s (s.reg x) (s.reg y) n px py → s.fb.pixel px py = true) → u.reg 15 = 0)

/-- 43_display.md R193, an inference of the spec's own, to the letter: "the second sets VF = 1 whenever the sprite has at least
one set bit". It fails: where every covered pixel was already set, the first draw clears them all and the second, setting them
again, meets no set pixel, so R191 gives VF = 0 (log 30). N = 0 and the pixels covered as in DrawingTwiceCancels (D12, D13, log
17). -/
def Obligations.DrawingTwiceCancelsAsWritten : Prop :=
  ∀ (x y : Reg) (n : Nat) (s : State), (Instr.drw x y n).wellFormed = true → n = 0 ∨ s.i.toNat + n ≤ 4096 →
    ∃ t, exec (.drw x y n) s = .next t ∧
      ∀ s' : State, Part.fb.same t s' → s'.i = s.i → s'.reg x = s.reg x → s'.reg y = s.reg y →
        (∀ r, r < n → s'.mem.byte (s.i.toNat + r) = s.mem.byte (s.i.toNat + r)) →
        ∃ u, exec (.drw x y n) s' = .next u ∧ Part.fb.same s u ∧
          ((∃ r, r < n ∧ s.mem.byte (s.i.toNat + r) ≠ 0) → u.reg 15 = 1)

/-! Timers, key-wait. -/

/-- R211, R212, R213: VX = DT; DT = VX; ST = VX, which turns the sound output on or off at once (R245). -/
def Obligations.TimerRegisterTransfers : Prop :=
  ∀ (x : Reg) (s : State),
    SetsReg (.ldVxDt x) s x s.dt.toNat ∧
    (∃ t, exec (.ldDtVx x) s = .next t ∧ t.dt = s.reg x ∧ t.pc.toNat = (s.pc.toNat + 2) % 65536 ∧
      Completes s t .continued [.dt]) ∧
    (∃ t, exec (.ldStVx x) s = .next t ∧ t.st = s.reg x ∧ (t.soundOn = true ↔ (s.reg x).toNat ≠ 0) ∧
      t.pc.toNat = (s.pc.toNat + 2) % 65536 ∧ Completes s t .continued [.st])

/-- `LD VX, K` (44_timers_keys.md R214): with no key pressed it blocks where it is; otherwise it loads the lowest-numbered pressed
key and goes on (level-triggered, lowest key: D14, log 14, the spec's own choice). -/
def Obligations.KeyWaitBlocksOrLoadsLowestKey : Prop :=
  ∀ (x : Reg) (s : State),
    ((∀ k : Fin 16, s.keys[k] = false) →
      ∃ t, exec (.ldVxK x) s = .next t ∧ t.run = .waitingForKey ∧ t.result = .tick .blocked ∧
        UnchangedBut [.run, .result] s t) ∧
    (∀ k : Fin 16, s.keys[k] = true → (∀ j : Fin 16, j.val < k.val → s.keys[j] = false) →
      SetsReg (.ldVxK x) s x k.val)

/-- (44_timers_keys.md R215, an inference of the spec's own; ticks with no call listed: log 1; keys held: log 2; the model's
choices) Ticks at a `LD VX, K` return `Blocked` on every call while no key is pressed, and the first call whose input has a
pressed key writes a pressed key's number to VX and advances PC by 2. -/
def Obligations.KeyWaitRetriesUntilAKey : Prop :=
  ∀ (n : Nat) (x : Reg) (w : Word) (s : State) (keys : Keypad), s.heldFault = none → s.calls = [] →
    fetch s = .ok w → decodeWord w = .instr (.ldVxK x) → (∀ k : Fin 16, s.keys[k] = false) →
    (∃ k : Fin 16, keys[k] = true) →
    core.run (n + 1) s =
      .next { s with loadAdmitted := false, run := .waitingForKey, result := .tick .blocked } ∧
    ∃ t, core.run (n + 3) { s with calls := List.replicate (n + 1) .tick ++ [.keypadWrite keys, .tick] } = .next t ∧
      (∃ k : Fin 16, keys[k] = true ∧ (t.reg x).toNat = k.val) ∧ t.pc.toNat = s.pc.toNat + 2 ∧
      t.run = .running ∧ t.result = .tick .continued

/-- The timer tick (60_exceptions.md R239, R242): each timer goes down by one if above 0 and stays at 0, in every operating state
(D22), and nothing else of the block but the latch changes (log 19). -/
def Obligations.TimerTickCountsDown : Prop :=
  ∀ s : State, s.calls.head? = some .timerTick →
    ∃ t, step s = .next t ∧ t.dt.toNat = s.dt.toNat - 1 ∧ t.st.toNat = s.st.toNat - 1 ∧ t.calls = s.calls.tail ∧
      UnchangedBut [.dt, .st, .soundLatch, .calls, .result] s t

/-- Sound edges (60_exceptions.md R241; the latch rule is the spec's own definition, D23, log 19): ST through 1 to 0, or ST cleared
after a start, stops; the first timer tick that sees ST at 2 or more starts; otherwise no change. -/
def Obligations.SoundEdgesFollowTheLatch : Prop :=
  ∀ s : State, s.calls.head? = some .timerTick →
    ∃ t, step s = .next t ∧
      (s.st.toNat = 1 → t.result = .timer .soundStopped ∧ t.soundLatch = false) ∧
      (s.st.toNat = 0 → s.soundLatch = true → t.result = .timer .soundStopped ∧ t.soundLatch = false) ∧
      (s.st.toNat = 0 → s.soundLatch = false → t.result = .timer .noChange ∧ t.soundLatch = false) ∧
      (2 ≤ s.st.toNat → s.soundLatch = false → t.result = .timer .soundStarted ∧ t.soundLatch = true) ∧
      (2 ≤ s.st.toNat → s.soundLatch = true → t.result = .timer .noChange ∧ t.soundLatch = true)

/-! ROM load, keypad write, framebuffer read. -/

/-- R274, R275: an admitted ROM of at most 3584 bytes is written from 0x200 and closes admission; a longer one returns `RomTooLarge`
with memory unchanged and admission still open; nothing else of the block changes. -/
def Obligations.RomLoadWritesFromRomBase : Prop :=
  ∀ (rom : List Byte) (rest : List HostCall) (s : State), MemoryCanonical s → s.calls = .load rom :: rest →
    s.loadAdmitted = true →
    (rom.length ≤ 3584 → ∃ t, step s = .next t ∧ (∀ k, k < rom.length → some (t.mem.byte (0x200 + k)) = rom[k]?) ∧
      MemUnchangedOutside 0x200 rom.length s t ∧ t.loadAdmitted = false ∧ t.result = .load .success ∧ t.calls = rest ∧
      UnchangedBut [.mem, .loadAdmitted, .calls, .result] s t) ∧
    (3584 < rom.length → ∃ t, step s = .next t ∧ t.result = .load .romTooLarge ∧ t.calls = rest ∧
      UnchangedBut [.calls, .result] s t)

/-- A ROM load that is not admitted has no step (70_reset_and_hazards.md R276; D25; the admission test comes before the size test:
log 18, the model's reading), and the first tick closes admission (10_state.md R32). With no call listed the step is a tick (log
1: the model's choice). -/
def Obligations.LoadOutsideAdmissionIsRefused : Prop :=
  (∀ (rom : List Byte) (rest : List HostCall) (s : State), s.calls = .load rom :: rest → s.loadAdmitted = false →
    step s = .refused .loadNotAdmitted) ∧
  (∀ s t : State, s.tickIsNext → s.heldFault = none → step s = .next t → t.loadAdmitted = false)

/-- Keypad write sets the flags the next ticks read and nothing else; framebuffer read returns the grid and changes nothing
(60_exceptions.md R243, R244; D37; the flags stay until the next write: log 2, the model's choice). -/
def Obligations.KeypadWriteAndFramebufferRead : Prop :=
  ∀ (keys : Keypad) (rest : List HostCall) (s : State),
    (s.calls = .keypadWrite keys :: rest →
      ∃ t, step s = .next t ∧ t.keys = keys ∧ t.calls = rest ∧ UnchangedBut [.keys, .calls, .result] s t) ∧
    (s.calls = .framebufferRead :: rest →
      ∃ t, step s = .next t ∧ t.result = .snapshot s.fb ∧ t.calls = rest ∧ UnchangedBut [.calls, .result] s t)

/-- The self-jump (70_reset_and_hazards.md R283 (b); ticks with no call listed: log 1, the model's choice): where the word at PC
is `1NNN` with NNN = PC, every further tick leaves the state as the first one does. -/
def Obligations.SelfJumpNeverMoves : Prop :=
  ∀ (n : Nat) (nnn : Addr12) (w : Word) (s : State), s.heldFault = none → s.calls = [] → fetch s = .ok w →
    decodeWord w = .instr (.jp nnn) → nnn.toNat = s.pc.toNat →
    core.run (n + 1) s = .next { s with loadAdmitted := false, run := .running, result := .tick .continued }

/-! Invariants: kept by every step, from every state that has them; with no call listed a step is a tick (log 1: the model's
choice). -/

/-- Every step keeps memory in its canonical form (20_memory.md R50, R52, R53: no write leaves the address space). -/
def Obligations.StepKeepsMemoryCanonical : Prop :=
  ∀ s t : State, MemoryCanonical s → step s = .next t → MemoryCanonical t

/-- Every step keeps: while waiting for a key, the word at PC is still the key-wait (30_encoding.md R84; D36, log 14). -/
def Obligations.StepKeepsWaitingAtTheKeyWait : Prop :=
  ∀ s t : State, WaitsAtKeyWait s → step s = .next t → WaitsAtKeyWait t

/-- Every step keeps: a held fault is the one the state itself would raise again (60_exceptions.md R232, R233; D19, log 11). -/
def Obligations.StepKeepsHeldFaultPrecise : Prop :=
  ∀ s t : State, HeldFaultIsPrecise s → step s = .next t → HeldFaultIsPrecise t

/-- Every step keeps PC at most 0x10FE and every return address at most 0x1000, so PC arithmetic never wraps (10_state.md R24,
40_control_flow.md R103, R104; D17, D18, log 12). -/
def Obligations.StepKeepsControlFlowBounded : Prop :=
  ∀ s t : State, ControlFlowBounded s → step s = .next t → ControlFlowBounded t

/-- The invariants hold right after reset. -/
def Obligations.ResetHasEveryInvariant : Prop :=
  MemoryCanonical State.reset ∧ WaitsAtKeyWait State.reset ∧ HeldFaultIsPrecise State.reset ∧ ControlFlowBounded State.reset

/-- The canonical form is canonical: two states with canonical memories that read the same in every part are equal, so a state is
what can be read of it (10_state.md R20 "nothing else persists between entry-point calls"). -/
def Obligations.StateIsWhatCanBeRead : Prop :=
  ∀ s t : State, MemoryCanonical s → MemoryCanonical t → (∀ p : Part, p.same s t) → t = s
end

