-- ==== Sys2Proof/Laws/Decode.lean ====
section
/-! SUPPORT. The fields of a word built from its parts, by format (30_encoding.md R71, R72), and the fixed bits a mask keeps. -/

namespace Sys2Proof

/-! Format FA: op, nnn. -/

theorem fieldOp_fa (o : BitVec 4) (a : Addr12) : fieldOp (o ++ a) = o.toFin :=
  congrArg BitVec.toFin BitVec.extractLsb'_append_eq_left

theorem fieldNNN_fa (o : BitVec 4) (a : Addr12) : fieldNNN (o ++ a) = a :=
  BitVec.extractLsb'_append_eq_right

/-! Format FXI: op, x, nn. -/

theorem fieldOp_fxi (o x : BitVec 4) (nn : Byte) : fieldOp (o ++ x ++ nn) = o.toFin :=
  congrArg BitVec.toFin
    ((BitVec.extractLsb'_append_eq_of_le (xhi := o ++ x) (xlo := nn) (by decide)).trans BitVec.extractLsb'_append_eq_left)

theorem fieldX_fxi (o x : BitVec 4) (nn : Byte) : fieldX (o ++ x ++ nn) = x.toFin :=
  congrArg BitVec.toFin
    ((BitVec.extractLsb'_append_eq_of_le (xhi := o ++ x) (xlo := nn) (by decide)).trans BitVec.extractLsb'_append_eq_right)

theorem fieldNN_fxi (o x : BitVec 4) (nn : Byte) : fieldNN (o ++ x ++ nn) = nn :=
  BitVec.extractLsb'_append_eq_right

/-! Format FXY: op, x, y, n. -/

theorem fieldOp_fxy (o x y n : BitVec 4) : fieldOp (o ++ x ++ y ++ n) = o.toFin :=
  congrArg BitVec.toFin
    ((BitVec.extractLsb'_append_eq_of_le (xhi := o ++ x ++ y) (xlo := n) (by decide)).trans
      ((BitVec.extractLsb'_append_eq_of_le (xhi := o ++ x) (xlo := y) (by decide)).trans BitVec.extractLsb'_append_eq_left))

theorem fieldX_fxy (o x y n : BitVec 4) : fieldX (o ++ x ++ y ++ n) = x.toFin :=
  congrArg BitVec.toFin
    ((BitVec.extractLsb'_append_eq_of_le (xhi := o ++ x ++ y) (xlo := n) (by decide)).trans
      ((BitVec.extractLsb'_append_eq_of_le (xhi := o ++ x) (xlo := y) (by decide)).trans BitVec.extractLsb'_append_eq_right))

theorem fieldY_fxy (o x y n : BitVec 4) : fieldY (o ++ x ++ y ++ n) = y.toFin :=
  congrArg BitVec.toFin
    ((BitVec.extractLsb'_append_eq_of_le (xhi := o ++ x ++ y) (xlo := n) (by decide)).trans BitVec.extractLsb'_append_eq_right)

theorem fieldN_fxy (o x y n : BitVec 4) : fieldN (o ++ x ++ y ++ n) = n.toFin :=
  congrArg BitVec.toFin BitVec.extractLsb'_append_eq_right

/-- A register name survives its 4-bit field. -/
theorem regBits_toFin (x : Reg) : (regBits x).toFin = x := by
  revert x; decide

/-! The decode function by major nibble. -/

theorem decodeWord_op0 {w : Word} (h : fieldOp w = 0x0) :
    decodeWord w = decodeZero w := by simp [decodeWord, h]
theorem decodeWord_op1 {w : Word} (h : fieldOp w = 0x1) :
    decodeWord w = .instr (.jp (fieldNNN w)) := by simp [decodeWord, h]
theorem decodeWord_op2 {w : Word} (h : fieldOp w = 0x2) :
    decodeWord w = .instr (.call (fieldNNN w)) := by simp [decodeWord, h]
theorem decodeWord_op3 {w : Word} (h : fieldOp w = 0x3) :
    decodeWord w = .instr (.seImm (fieldX w) (fieldNN w)) := by simp [decodeWord, h]
theorem decodeWord_op4 {w : Word} (h : fieldOp w = 0x4) :
    decodeWord w = .instr (.sneImm (fieldX w) (fieldNN w)) := by simp [decodeWord, h]
theorem decodeWord_op5 {w : Word} (h : fieldOp w = 0x5) :
    decodeWord w = if fieldN w = 0 then .instr (.seReg (fieldX w) (fieldY w)) else .unknown w := by simp [decodeWord, h]
theorem decodeWord_op6 {w : Word} (h : fieldOp w = 0x6) :
    decodeWord w = .instr (.ldImm (fieldX w) (fieldNN w)) := by simp [decodeWord, h]
theorem decodeWord_op7 {w : Word} (h : fieldOp w = 0x7) :
    decodeWord w = .instr (.addImm (fieldX w) (fieldNN w)) := by simp [decodeWord, h]
theorem decodeWord_op8 {w : Word} (h : fieldOp w = 0x8) :
    decodeWord w = decodeEight w := by simp [decodeWord, h]
theorem decodeWord_op9 {w : Word} (h : fieldOp w = 0x9) :
    decodeWord w = if fieldN w = 0 then .instr (.sneReg (fieldX w) (fieldY w)) else .unknown w := by simp [decodeWord, h]
theorem decodeWord_opA {w : Word} (h : fieldOp w = 0xA) :
    decodeWord w = .instr (.ldI (fieldNNN w)) := by simp [decodeWord, h]
theorem decodeWord_opB {w : Word} (h : fieldOp w = 0xB) :
    decodeWord w = .instr (.jpV0 (fieldNNN w)) := by simp [decodeWord, h]
theorem decodeWord_opC {w : Word} (h : fieldOp w = 0xC) :
    decodeWord w = .instr (.rnd (fieldX w) (fieldNN w)) := by simp [decodeWord, h]
theorem decodeWord_opD {w : Word} (h : fieldOp w = 0xD) :
    decodeWord w = .instr (.drw (fieldX w) (fieldY w) (fieldN w).val) := by simp [decodeWord, h]
theorem decodeWord_opE {w : Word} (h : fieldOp w = 0xE) :
    decodeWord w = decodeE w := by simp [decodeWord, h]
theorem decodeWord_opF {w : Word} (h : fieldOp w = 0xF) :
    decodeWord w = decodeF w := by simp [decodeWord, h]

/-- A word is its four nibbles. -/
theorem word_eq_nibbles (w : Word) :
    w = w.extractLsb' 12 4 ++ w.extractLsb' 8 4 ++ w.extractLsb' 4 4 ++ w.extractLsb' 0 4 := by
  apply BitVec.eq_of_getLsbD_eq
  intro j hj
  have happ : ∀ (a : Addr12) (b : BitVec 4), (a ++ b : Word).getLsbD j = if j < 4 then b.getLsbD j else a.getLsbD (j - 4) :=
    fun a b => BitVec.getLsbD_append
  have happ8 : ∀ (a : Byte) (b : BitVec 4) (k : Nat),
      (a ++ b : Addr12).getLsbD k = if k < 4 then b.getLsbD k else a.getLsbD (k - 4) := fun a b k => BitVec.getLsbD_append
  have happ4 : ∀ (a b : BitVec 4) (k : Nat),
      (a ++ b : Byte).getLsbD k = if k < 4 then b.getLsbD k else a.getLsbD (k - 4) := fun a b k => BitVec.getLsbD_append
  rw [happ, happ8, happ4]
  simp only [BitVec.getLsbD_extractLsb']
  by_cases h0 : j < 4
  · simp [h0]
  · by_cases h1 : j - 4 < 4
    · have e : 4 + (j - 4) = j := by omega
      simp [h0, h1, e]
    · by_cases h2 : j - 4 - 4 < 4
      · have e : 8 + (j - 4 - 4) = j := by omega
        simp [h0, h1, h2, e]
      · have e : 12 + (j - 4 - 4 - 4) = j := by omega
        have e2 : j - 4 - 4 - 4 < 4 := by omega
        simp [h0, h1, h2, e, e2]

/-- Two bytes of a word give the word back. -/
theorem wordOfBytes_highByte_lowByte (w : Word) : wordOfBytes (highByte w) (lowByte w) = w := by
  apply BitVec.eq_of_getLsbD_eq
  intro j hj
  refine (BitVec.getLsbD_append (x := highByte w) (y := lowByte w)).trans ?_
  simp only [highByte, lowByte, BitVec.getLsbD_extractLsb']
  by_cases h0 : j < 8
  · simp [h0]
  · have e : 8 + (j - 8) = j := by omega
    have e2 : j - 8 < 8 := by omega
    simp [h0, e, e2]

/-! What a row's mask keeps of a word. -/

theorem selects_of_and {r : OpcodeRow} {w : Word} (h : w &&& r.mask = r.pattern) : r.selects w = true := by
  simp [OpcodeRow.selects, h]

theorem and_mask_fa (o : BitVec 4) (a : Addr12) : (o ++ a : Word) &&& 0xF000#16 = o ++ 0#12 := by
  have hm : (0xF000#16 : Word) = 0xF#4 ++ 0x000#12 := by decide
  rw [hm]
  refine BitVec.and_append.trans ?_
  have ho : o &&& 0xF#4 = o := BitVec.and_allOnes
  rw [ho, show a &&& 0x000#12 = 0#12 from BitVec.and_zero]

theorem and_mask_fxi (o x : BitVec 4) (nn : Byte) : (o ++ x ++ nn : Word) &&& 0xF000#16 = o ++ 0#12 := by
  have hm : (0xF000#16 : Word) = (0xF#4 ++ 0x0#4 : Byte) ++ 0x00#8 := by decide
  rw [hm]
  refine BitVec.and_append.trans ?_
  have ho : o &&& 0xF#4 = o := BitVec.and_allOnes
  rw [show (o ++ x : Byte) &&& (0xF#4 ++ 0x0#4) = o ++ 0x0#4 from
    BitVec.and_append.trans (by rw [ho, show x &&& 0x0#4 = 0x0#4 from BitVec.and_zero]),
    show nn &&& 0x00#8 = 0x00#8 from BitVec.and_zero]
  revert o; decide

theorem and_mask_fxy (o x y n : BitVec 4) : (o ++ x ++ y ++ n : Word) &&& 0xF00F#16 = o ++ 0x0#4 ++ 0x0#4 ++ n := by
  have hm : (0xF00F#16 : Word) = ((0xF#4 ++ 0x0#4 : Byte) ++ 0x0#4 : Addr12) ++ 0xF#4 := by decide
  rw [hm]
  refine BitVec.and_append.trans ?_
  have ho : o &&& 0xF#4 = o := BitVec.and_allOnes
  have hn : n &&& 0xF#4 = n := BitVec.and_allOnes
  rw [hn, show ((o ++ x : Byte) ++ y : Addr12) &&& ((0xF#4 ++ 0x0#4 : Byte) ++ 0x0#4) = (o ++ 0x0#4 : Byte) ++ 0x0#4 from
    BitVec.and_append.trans (by
      rw [show (o ++ x : Byte) &&& (0xF#4 ++ 0x0#4) = o ++ 0x0#4 from
        BitVec.and_append.trans (by rw [ho, show x &&& 0x0#4 = 0x0#4 from BitVec.and_zero]),
        show y &&& 0x0#4 = 0x0#4 from BitVec.and_zero])]

theorem and_mask_fxm (o x : BitVec 4) (nn : Byte) : (o ++ x ++ nn : Word) &&& 0xF0FF#16 = o ++ 0x0#4 ++ nn := by
  have hm : (0xF0FF#16 : Word) = (0xF#4 ++ 0x0#4 : Byte) ++ 0xFF#8 := by decide
  rw [hm]
  refine BitVec.and_append.trans ?_
  have ho : o &&& 0xF#4 = o := BitVec.and_allOnes
  have hn : nn &&& 0xFF#8 = nn := BitVec.and_allOnes
  rw [hn, show (o ++ x : Byte) &&& (0xF#4 ++ 0x0#4) = o ++ 0x0#4 from
    BitVec.and_append.trans (by rw [ho, show x &&& 0x0#4 = 0x0#4 from BitVec.and_zero])]

theorem and_mask_fxyn (o x y n : BitVec 4) : (o ++ x ++ y ++ n : Word) &&& 0xF000#16 = o ++ 0#12 := by
  have h : (o ++ x ++ y ++ n : Word) = o ++ x ++ (y ++ n : Byte) := by
    exact BitVec.append_assoc (x₁ := o ++ x) (x₂ := y) (x₃ := n)
  rw [h, and_mask_fxi]

end Sys2Proof
end

