-- ==== Sys2Proof/Laws/Memory.lean ====
section
/-! SUPPORT. The laws of memory: every operation keeps the canonical form, and a canonical memory reads back what was written and
is otherwise unchanged. -/

namespace Sys2Proof.Machine

theorem Memory.wf_nil : Memory.wf [] = true := rfl

theorem Memory.wfFrom_cons {low k : Nat} {b : Byte} {rest : Memory} :
    Memory.wfFrom low ((k, b) :: rest) = true ↔
      low ≤ k ∧ k < 4096 ∧ b ≠ resetByte k ∧ Memory.wfFrom (k + 1) rest = true := by
  simp [Memory.wfFrom, and_assoc]

theorem Memory.wfFrom_mono {low low' : Nat} (hle : low' ≤ low) {m : Memory} (h : Memory.wfFrom low m = true) :
    Memory.wfFrom low' m = true := by
  cases m with
  | nil => rfl
  | cons c rest =>
    obtain ⟨k, b⟩ := c
    rw [Memory.wfFrom_cons] at h ⊢
    exact ⟨Nat.le_trans hle h.1, h.2⟩

/-- Below its first possible cell, a canonical memory reads as reset. -/
theorem Memory.byte_below {low : Nat} {m : Memory} (h : Memory.wfFrom low m = true) {a : Nat} (ha : a < low) :
    m.byte a = resetByte a := by
  induction m generalizing low with
  | nil => rfl
  | cons c rest ih =>
    obtain ⟨k, b⟩ := c
    rw [Memory.wfFrom_cons] at h
    have hk : k ≠ a := by omega
    simp only [Memory.byte, hk, if_false]
    exact ih h.2.2.2 (by omega)

theorem Memory.byte_cellBefore {a : Nat} {b : Byte} {rest : Memory} {low : Nat} (h : Memory.wfFrom low rest = true)
    (ha : a < low) (c : Nat) : (Memory.cellBefore a b rest).byte c = if c = a then b else Memory.byte rest c := by
  unfold Memory.cellBefore
  by_cases hc : c = a
  · subst hc
    split
    · next hb => simp [Memory.byte_below h ha, hb]
    · simp [Memory.byte]
  · have hac : a ≠ c := fun e => hc e.symm
    rw [if_neg hc]
    split <;> simp [Memory.byte, hac]

theorem Memory.cellBefore_wfFrom {a low : Nat} {b : Byte} {rest : Memory} (hlow : low ≤ a) (ha : a < 4096)
    (h : Memory.wfFrom (a + 1) rest = true) : Memory.wfFrom low (Memory.cellBefore a b rest) = true := by
  unfold Memory.cellBefore
  split
  · exact Memory.wfFrom_mono (by omega) h
  · next hb => exact Memory.wfFrom_cons.2 ⟨hlow, ha, hb, h⟩

theorem Memory.write_wfFrom {m : Memory} {low a : Nat} (b : Byte) (hm : Memory.wfFrom low m = true) (hlow : low ≤ a)
    (ha : a < 4096) : Memory.wfFrom low (m.write a b) = true := by
  induction m generalizing low with
  | nil => exact Memory.cellBefore_wfFrom hlow ha rfl
  | cons c rest ih =>
    obtain ⟨k, d⟩ := c
    have hc := Memory.wfFrom_cons.1 hm
    unfold Memory.write
    split
    · exact Memory.wfFrom_cons.2 ⟨hc.1, hc.2.1, hc.2.2.1, ih hc.2.2.2 (by omega)⟩
    · split
      · next hk => subst hk; exact Memory.cellBefore_wfFrom hlow ha hc.2.2.2
      · exact Memory.cellBefore_wfFrom hlow ha (Memory.wfFrom_cons.2 ⟨by omega, hc.2⟩)

/-- A write inside the address space keeps the canonical form. -/
theorem Memory.write_wf {m : Memory} {a : Nat} (b : Byte) (hm : m.wf = true) (ha : a < 4096) :
    (m.write a b).wf = true :=
  Memory.write_wfFrom b hm (Nat.zero_le a) ha

theorem Memory.byte_write_from {m : Memory} {low a : Nat} (b : Byte) (hm : Memory.wfFrom low m = true) (c : Nat) :
    (m.write a b).byte c = if c = a then b else m.byte c := by
  induction m generalizing low with
  | nil => exact Memory.byte_cellBefore (low := a + 1) rfl (by omega) c
  | cons d rest ih =>
    obtain ⟨k, e⟩ := d
    have hc := Memory.wfFrom_cons.1 hm
    unfold Memory.write
    split
    · next hlt =>
      by_cases hkc : k = c
      · have hca : c ≠ a := by omega
        simp [Memory.byte, hkc, hca]
      · simp only [Memory.byte, hkc, if_false]
        exact ih hc.2.2.2
    · split
      · next hk =>
        subst hk
        rw [Memory.byte_cellBefore hc.2.2.2 (by omega)]
        by_cases hcc : c = k
        · simp [hcc]
        · have hkc : k ≠ c := fun h => hcc h.symm
          simp [hcc, hkc, Memory.byte]
      · have hlt : a < k := by omega
        exact Memory.byte_cellBefore (low := k) (Memory.wfFrom_cons.2 ⟨Nat.le_refl k, hc.2⟩) hlt c

/-- Reading a canonical memory after a write: the byte written at its address, the old byte everywhere else. -/
theorem Memory.byte_write {m : Memory} (hm : m.wf = true) (a : Nat) (b : Byte) (c : Nat) :
    (m.write a b).byte c = if c = a then b else m.byte c :=
  Memory.byte_write_from b hm c

theorem Memory.byte_write_self {m : Memory} (hm : m.wf = true) (a : Nat) (b : Byte) : (m.write a b).byte a = b := by
  simp [Memory.byte_write hm]

theorem Memory.byte_write_of_ne {m : Memory} (hm : m.wf = true) {a c : Nat} (b : Byte) (h : c ≠ a) :
    (m.write a b).byte c = m.byte c := by
  simp [Memory.byte_write hm, h]

/-- A block write inside the address space keeps the canonical form. -/
theorem Memory.writeBlock_wf {bs : List Byte} {m : Memory} {a : Nat} (hm : m.wf = true)
    (ha : a + bs.length ≤ 4096) : (m.writeBlock a bs).wf = true := by
  induction bs generalizing m a with
  | nil => exact hm
  | cons b bs ih =>
    simp only [List.length_cons] at ha
    exact ih (Memory.write_wf b hm (by omega)) (by omega)

/-- Reading after a block write inside the address space: the block's bytes in its range, the old bytes elsewhere. -/
theorem Memory.byte_writeBlock {bs : List Byte} {m : Memory} {a : Nat} (hm : m.wf = true)
    (ha : a + bs.length ≤ 4096) (c : Nat) :
    (m.writeBlock a bs).byte c = if a ≤ c ∧ c < a + bs.length then bs.getD (c - a) 0 else m.byte c := by
  induction bs generalizing m a with
  | nil =>
    have h : ¬(a ≤ c ∧ c < a + ([] : List Byte).length) := by simp only [List.length_nil]; omega
    rw [if_neg h]; rfl
  | cons b bs ih =>
    simp only [List.length_cons] at ha ⊢
    simp only [Memory.writeBlock]
    rw [ih (Memory.write_wf b hm (by omega)) (by omega), Memory.byte_write hm]
    by_cases h1 : a + 1 ≤ c ∧ c < a + 1 + bs.length
    · have h2 : a ≤ c ∧ c < a + (bs.length + 1) := by omega
      have h3 : c - a = (c - (a + 1)) + 1 := by omega
      rw [if_pos h1, if_pos h2, h3, List.getD_cons_succ]
    · by_cases h4 : c = a
      · subst h4
        have h5 : c ≤ c ∧ c < c + (bs.length + 1) := by omega
        rw [if_neg h1, if_pos rfl, if_pos h5]
        simp
      · have h2 : ¬(a ≤ c ∧ c < a + (bs.length + 1)) := by omega
        rw [if_neg h1, if_neg h4, if_neg h2]

end Sys2Proof.Machine
end

