-- ==== Sys2Proof/Laws/State.lean ====
section
/-! SUPPORT. What each state update does to each field, true by rfl; no later proof unfolds a record update. -/

namespace Sys2Proof.Machine.State

@[simp] theorem setReg_mem (s : State) (x : Reg) (b : Byte) : (s.setReg x b).mem = s.mem := rfl
@[simp] theorem setReg_v (s : State) (x : Reg) (b : Byte) : (s.setReg x b).v = s.v.set x.val b := rfl
@[simp] theorem setReg_i (s : State) (x : Reg) (b : Byte) : (s.setReg x b).i = s.i := rfl
@[simp] theorem setReg_pc (s : State) (x : Reg) (b : Byte) : (s.setReg x b).pc = s.pc := rfl
@[simp] theorem setReg_stack (s : State) (x : Reg) (b : Byte) : (s.setReg x b).stack = s.stack := rfl
@[simp] theorem setReg_sp (s : State) (x : Reg) (b : Byte) : (s.setReg x b).sp = s.sp := rfl
@[simp] theorem setReg_dt (s : State) (x : Reg) (b : Byte) : (s.setReg x b).dt = s.dt := rfl
@[simp] theorem setReg_st (s : State) (x : Reg) (b : Byte) : (s.setReg x b).st = s.st := rfl
@[simp] theorem setReg_fb (s : State) (x : Reg) (b : Byte) : (s.setReg x b).fb = s.fb := rfl
@[simp] theorem setReg_run (s : State) (x : Reg) (b : Byte) : (s.setReg x b).run = s.run := rfl
@[simp] theorem setReg_soundLatch (s : State) (x : Reg) (b : Byte) : (s.setReg x b).soundLatch = s.soundLatch := rfl
@[simp] theorem setReg_loadAdmitted (s : State) (x : Reg) (b : Byte) : (s.setReg x b).loadAdmitted = s.loadAdmitted := rfl
@[simp] theorem setReg_keys (s : State) (x : Reg) (b : Byte) : (s.setReg x b).keys = s.keys := rfl
@[simp] theorem setReg_calls (s : State) (x : Reg) (b : Byte) : (s.setReg x b).calls = s.calls := rfl
@[simp] theorem setReg_result (s : State) (x : Reg) (b : Byte) : (s.setReg x b).result = s.result := rfl
@[simp] theorem setReg_draws (s : State) (x : Reg) (b : Byte) : (s.setReg x b).draws = s.draws := rfl

@[simp] theorem setI_mem (s : State) (w : Word) : (s.setI w).mem = s.mem := rfl
@[simp] theorem setI_v (s : State) (w : Word) : (s.setI w).v = s.v := rfl
@[simp] theorem setI_i (s : State) (w : Word) : (s.setI w).i = w := rfl
@[simp] theorem setI_pc (s : State) (w : Word) : (s.setI w).pc = s.pc := rfl
@[simp] theorem setI_stack (s : State) (w : Word) : (s.setI w).stack = s.stack := rfl
@[simp] theorem setI_sp (s : State) (w : Word) : (s.setI w).sp = s.sp := rfl
@[simp] theorem setI_dt (s : State) (w : Word) : (s.setI w).dt = s.dt := rfl
@[simp] theorem setI_st (s : State) (w : Word) : (s.setI w).st = s.st := rfl
@[simp] theorem setI_fb (s : State) (w : Word) : (s.setI w).fb = s.fb := rfl
@[simp] theorem setI_run (s : State) (w : Word) : (s.setI w).run = s.run := rfl
@[simp] theorem setI_soundLatch (s : State) (w : Word) : (s.setI w).soundLatch = s.soundLatch := rfl
@[simp] theorem setI_loadAdmitted (s : State) (w : Word) : (s.setI w).loadAdmitted = s.loadAdmitted := rfl
@[simp] theorem setI_keys (s : State) (w : Word) : (s.setI w).keys = s.keys := rfl
@[simp] theorem setI_calls (s : State) (w : Word) : (s.setI w).calls = s.calls := rfl
@[simp] theorem setI_result (s : State) (w : Word) : (s.setI w).result = s.result := rfl
@[simp] theorem setI_draws (s : State) (w : Word) : (s.setI w).draws = s.draws := rfl
@[simp] theorem setI_reg (s : State) (w : Word) (y : Reg) : (s.setI w).reg y = s.reg y := rfl

@[simp] theorem setDt_mem (s : State) (b : Byte) : (s.setDt b).mem = s.mem := rfl
@[simp] theorem setDt_v (s : State) (b : Byte) : (s.setDt b).v = s.v := rfl
@[simp] theorem setDt_i (s : State) (b : Byte) : (s.setDt b).i = s.i := rfl
@[simp] theorem setDt_pc (s : State) (b : Byte) : (s.setDt b).pc = s.pc := rfl
@[simp] theorem setDt_stack (s : State) (b : Byte) : (s.setDt b).stack = s.stack := rfl
@[simp] theorem setDt_sp (s : State) (b : Byte) : (s.setDt b).sp = s.sp := rfl
@[simp] theorem setDt_dt (s : State) (b : Byte) : (s.setDt b).dt = b := rfl
@[simp] theorem setDt_st (s : State) (b : Byte) : (s.setDt b).st = s.st := rfl
@[simp] theorem setDt_fb (s : State) (b : Byte) : (s.setDt b).fb = s.fb := rfl
@[simp] theorem setDt_run (s : State) (b : Byte) : (s.setDt b).run = s.run := rfl
@[simp] theorem setDt_soundLatch (s : State) (b : Byte) : (s.setDt b).soundLatch = s.soundLatch := rfl
@[simp] theorem setDt_loadAdmitted (s : State) (b : Byte) : (s.setDt b).loadAdmitted = s.loadAdmitted := rfl
@[simp] theorem setDt_keys (s : State) (b : Byte) : (s.setDt b).keys = s.keys := rfl
@[simp] theorem setDt_calls (s : State) (b : Byte) : (s.setDt b).calls = s.calls := rfl
@[simp] theorem setDt_result (s : State) (b : Byte) : (s.setDt b).result = s.result := rfl
@[simp] theorem setDt_draws (s : State) (b : Byte) : (s.setDt b).draws = s.draws := rfl
@[simp] theorem setDt_reg (s : State) (b : Byte) (y : Reg) : (s.setDt b).reg y = s.reg y := rfl

@[simp] theorem setSt_mem (s : State) (b : Byte) : (s.setSt b).mem = s.mem := rfl
@[simp] theorem setSt_v (s : State) (b : Byte) : (s.setSt b).v = s.v := rfl
@[simp] theorem setSt_i (s : State) (b : Byte) : (s.setSt b).i = s.i := rfl
@[simp] theorem setSt_pc (s : State) (b : Byte) : (s.setSt b).pc = s.pc := rfl
@[simp] theorem setSt_stack (s : State) (b : Byte) : (s.setSt b).stack = s.stack := rfl
@[simp] theorem setSt_sp (s : State) (b : Byte) : (s.setSt b).sp = s.sp := rfl
@[simp] theorem setSt_dt (s : State) (b : Byte) : (s.setSt b).dt = s.dt := rfl
@[simp] theorem setSt_st (s : State) (b : Byte) : (s.setSt b).st = b := rfl
@[simp] theorem setSt_fb (s : State) (b : Byte) : (s.setSt b).fb = s.fb := rfl
@[simp] theorem setSt_run (s : State) (b : Byte) : (s.setSt b).run = s.run := rfl
@[simp] theorem setSt_soundLatch (s : State) (b : Byte) : (s.setSt b).soundLatch = s.soundLatch := rfl
@[simp] theorem setSt_loadAdmitted (s : State) (b : Byte) : (s.setSt b).loadAdmitted = s.loadAdmitted := rfl
@[simp] theorem setSt_keys (s : State) (b : Byte) : (s.setSt b).keys = s.keys := rfl
@[simp] theorem setSt_calls (s : State) (b : Byte) : (s.setSt b).calls = s.calls := rfl
@[simp] theorem setSt_result (s : State) (b : Byte) : (s.setSt b).result = s.result := rfl
@[simp] theorem setSt_draws (s : State) (b : Byte) : (s.setSt b).draws = s.draws := rfl
@[simp] theorem setSt_reg (s : State) (b : Byte) (y : Reg) : (s.setSt b).reg y = s.reg y := rfl

@[simp] theorem memWrite_mem (s : State) (a : Nat) (b : Byte) : (s.memWrite a b).mem = s.mem.write a b := rfl
@[simp] theorem memWrite_v (s : State) (a : Nat) (b : Byte) : (s.memWrite a b).v = s.v := rfl
@[simp] theorem memWrite_i (s : State) (a : Nat) (b : Byte) : (s.memWrite a b).i = s.i := rfl
@[simp] theorem memWrite_pc (s : State) (a : Nat) (b : Byte) : (s.memWrite a b).pc = s.pc := rfl
@[simp] theorem memWrite_stack (s : State) (a : Nat) (b : Byte) : (s.memWrite a b).stack = s.stack := rfl
@[simp] theorem memWrite_sp (s : State) (a : Nat) (b : Byte) : (s.memWrite a b).sp = s.sp := rfl
@[simp] theorem memWrite_dt (s : State) (a : Nat) (b : Byte) : (s.memWrite a b).dt = s.dt := rfl
@[simp] theorem memWrite_st (s : State) (a : Nat) (b : Byte) : (s.memWrite a b).st = s.st := rfl
@[simp] theorem memWrite_fb (s : State) (a : Nat) (b : Byte) : (s.memWrite a b).fb = s.fb := rfl
@[simp] theorem memWrite_run (s : State) (a : Nat) (b : Byte) : (s.memWrite a b).run = s.run := rfl
@[simp] theorem memWrite_soundLatch (s : State) (a : Nat) (b : Byte) : (s.memWrite a b).soundLatch = s.soundLatch := rfl
@[simp] theorem memWrite_loadAdmitted (s : State) (a : Nat) (b : Byte) : (s.memWrite a b).loadAdmitted = s.loadAdmitted := rfl
@[simp] theorem memWrite_keys (s : State) (a : Nat) (b : Byte) : (s.memWrite a b).keys = s.keys := rfl
@[simp] theorem memWrite_calls (s : State) (a : Nat) (b : Byte) : (s.memWrite a b).calls = s.calls := rfl
@[simp] theorem memWrite_result (s : State) (a : Nat) (b : Byte) : (s.memWrite a b).result = s.result := rfl
@[simp] theorem memWrite_draws (s : State) (a : Nat) (b : Byte) : (s.memWrite a b).draws = s.draws := rfl
@[simp] theorem memWrite_reg (s : State) (a : Nat) (b : Byte) (y : Reg) : (s.memWrite a b).reg y = s.reg y := rfl

@[simp] theorem setFb_mem (s : State) (f : Framebuffer) : (s.setFb f).mem = s.mem := rfl
@[simp] theorem setFb_v (s : State) (f : Framebuffer) : (s.setFb f).v = s.v := rfl
@[simp] theorem setFb_i (s : State) (f : Framebuffer) : (s.setFb f).i = s.i := rfl
@[simp] theorem setFb_pc (s : State) (f : Framebuffer) : (s.setFb f).pc = s.pc := rfl
@[simp] theorem setFb_stack (s : State) (f : Framebuffer) : (s.setFb f).stack = s.stack := rfl
@[simp] theorem setFb_sp (s : State) (f : Framebuffer) : (s.setFb f).sp = s.sp := rfl
@[simp] theorem setFb_dt (s : State) (f : Framebuffer) : (s.setFb f).dt = s.dt := rfl
@[simp] theorem setFb_st (s : State) (f : Framebuffer) : (s.setFb f).st = s.st := rfl
@[simp] theorem setFb_fb (s : State) (f : Framebuffer) : (s.setFb f).fb = f := rfl
@[simp] theorem setFb_run (s : State) (f : Framebuffer) : (s.setFb f).run = s.run := rfl
@[simp] theorem setFb_soundLatch (s : State) (f : Framebuffer) : (s.setFb f).soundLatch = s.soundLatch := rfl
@[simp] theorem setFb_loadAdmitted (s : State) (f : Framebuffer) : (s.setFb f).loadAdmitted = s.loadAdmitted := rfl
@[simp] theorem setFb_keys (s : State) (f : Framebuffer) : (s.setFb f).keys = s.keys := rfl
@[simp] theorem setFb_calls (s : State) (f : Framebuffer) : (s.setFb f).calls = s.calls := rfl
@[simp] theorem setFb_result (s : State) (f : Framebuffer) : (s.setFb f).result = s.result := rfl
@[simp] theorem setFb_draws (s : State) (f : Framebuffer) : (s.setFb f).draws = s.draws := rfl
@[simp] theorem setFb_reg (s : State) (f : Framebuffer) (y : Reg) : (s.setFb f).reg y = s.reg y := rfl

@[simp] theorem drawn_mem (s : State) : (s.drawn).mem = s.mem := rfl
@[simp] theorem drawn_v (s : State) : (s.drawn).v = s.v := rfl
@[simp] theorem drawn_i (s : State) : (s.drawn).i = s.i := rfl
@[simp] theorem drawn_pc (s : State) : (s.drawn).pc = s.pc := rfl
@[simp] theorem drawn_stack (s : State) : (s.drawn).stack = s.stack := rfl
@[simp] theorem drawn_sp (s : State) : (s.drawn).sp = s.sp := rfl
@[simp] theorem drawn_dt (s : State) : (s.drawn).dt = s.dt := rfl
@[simp] theorem drawn_st (s : State) : (s.drawn).st = s.st := rfl
@[simp] theorem drawn_fb (s : State) : (s.drawn).fb = s.fb := rfl
@[simp] theorem drawn_run (s : State) : (s.drawn).run = s.run := rfl
@[simp] theorem drawn_soundLatch (s : State) : (s.drawn).soundLatch = s.soundLatch := rfl
@[simp] theorem drawn_loadAdmitted (s : State) : (s.drawn).loadAdmitted = s.loadAdmitted := rfl
@[simp] theorem drawn_keys (s : State) : (s.drawn).keys = s.keys := rfl
@[simp] theorem drawn_calls (s : State) : (s.drawn).calls = s.calls := rfl
@[simp] theorem drawn_result (s : State) : (s.drawn).result = s.result := rfl
@[simp] theorem drawn_draws (s : State) : (s.drawn).draws = s.draws + 1 := rfl
@[simp] theorem drawn_reg (s : State) (y : Reg) : (s.drawn).reg y = s.reg y := rfl

@[simp] theorem push_mem (s : State) (w : Word) (room : s.sp.val < 16) : (s.push w room).mem = s.mem := rfl
@[simp] theorem push_v (s : State) (w : Word) (room : s.sp.val < 16) : (s.push w room).v = s.v := rfl
@[simp] theorem push_i (s : State) (w : Word) (room : s.sp.val < 16) : (s.push w room).i = s.i := rfl
@[simp] theorem push_pc (s : State) (w : Word) (room : s.sp.val < 16) : (s.push w room).pc = s.pc := rfl
@[simp] theorem push_stack (s : State) (w : Word) (room : s.sp.val < 16) : (s.push w room).stack = s.stack.set s.sp.val w := rfl
@[simp] theorem push_sp (s : State) (w : Word) (room : s.sp.val < 16) : (s.push w room).sp = ⟨s.sp.val + 1, by omega⟩ := rfl
@[simp] theorem push_dt (s : State) (w : Word) (room : s.sp.val < 16) : (s.push w room).dt = s.dt := rfl
@[simp] theorem push_st (s : State) (w : Word) (room : s.sp.val < 16) : (s.push w room).st = s.st := rfl
@[simp] theorem push_fb (s : State) (w : Word) (room : s.sp.val < 16) : (s.push w room).fb = s.fb := rfl
@[simp] theorem push_run (s : State) (w : Word) (room : s.sp.val < 16) : (s.push w room).run = s.run := rfl
@[simp] theorem push_soundLatch (s : State) (w : Word) (room : s.sp.val < 16) : (s.push w room).soundLatch = s.soundLatch := rfl
@[simp] theorem push_loadAdmitted (s : State) (w : Word) (room : s.sp.val < 16) : (s.push w room).loadAdmitted = s.loadAdmitted := rfl
@[simp] theorem push_keys (s : State) (w : Word) (room : s.sp.val < 16) : (s.push w room).keys = s.keys := rfl
@[simp] theorem push_calls (s : State) (w : Word) (room : s.sp.val < 16) : (s.push w room).calls = s.calls := rfl
@[simp] theorem push_result (s : State) (w : Word) (room : s.sp.val < 16) : (s.push w room).result = s.result := rfl
@[simp] theorem push_draws (s : State) (w : Word) (room : s.sp.val < 16) : (s.push w room).draws = s.draws := rfl
@[simp] theorem push_reg (s : State) (w : Word) (room : s.sp.val < 16) (y : Reg) : (s.push w room).reg y = s.reg y := rfl

@[simp] theorem drop_mem (s : State) (held : 0 < s.sp.val) : (s.drop held).mem = s.mem := rfl
@[simp] theorem drop_v (s : State) (held : 0 < s.sp.val) : (s.drop held).v = s.v := rfl
@[simp] theorem drop_i (s : State) (held : 0 < s.sp.val) : (s.drop held).i = s.i := rfl
@[simp] theorem drop_pc (s : State) (held : 0 < s.sp.val) : (s.drop held).pc = s.pc := rfl
@[simp] theorem drop_stack (s : State) (held : 0 < s.sp.val) : (s.drop held).stack = s.stack := rfl
@[simp] theorem drop_sp (s : State) (held : 0 < s.sp.val) : (s.drop held).sp = ⟨s.sp.val - 1, by omega⟩ := rfl
@[simp] theorem drop_dt (s : State) (held : 0 < s.sp.val) : (s.drop held).dt = s.dt := rfl
@[simp] theorem drop_st (s : State) (held : 0 < s.sp.val) : (s.drop held).st = s.st := rfl
@[simp] theorem drop_fb (s : State) (held : 0 < s.sp.val) : (s.drop held).fb = s.fb := rfl
@[simp] theorem drop_run (s : State) (held : 0 < s.sp.val) : (s.drop held).run = s.run := rfl
@[simp] theorem drop_soundLatch (s : State) (held : 0 < s.sp.val) : (s.drop held).soundLatch = s.soundLatch := rfl
@[simp] theorem drop_loadAdmitted (s : State) (held : 0 < s.sp.val) : (s.drop held).loadAdmitted = s.loadAdmitted := rfl
@[simp] theorem drop_keys (s : State) (held : 0 < s.sp.val) : (s.drop held).keys = s.keys := rfl
@[simp] theorem drop_calls (s : State) (held : 0 < s.sp.val) : (s.drop held).calls = s.calls := rfl
@[simp] theorem drop_result (s : State) (held : 0 < s.sp.val) : (s.drop held).result = s.result := rfl
@[simp] theorem drop_draws (s : State) (held : 0 < s.sp.val) : (s.drop held).draws = s.draws := rfl
@[simp] theorem drop_reg (s : State) (held : 0 < s.sp.val) (y : Reg) : (s.drop held).reg y = s.reg y := rfl

@[simp] theorem finish_mem (s : State) (p : Word) (r : RunState) (o : TickOutcome) : (s.finish p r o).mem = s.mem := rfl
@[simp] theorem finish_v (s : State) (p : Word) (r : RunState) (o : TickOutcome) : (s.finish p r o).v = s.v := rfl
@[simp] theorem finish_i (s : State) (p : Word) (r : RunState) (o : TickOutcome) : (s.finish p r o).i = s.i := rfl
@[simp] theorem finish_pc (s : State) (p : Word) (r : RunState) (o : TickOutcome) : (s.finish p r o).pc = p := rfl
@[simp] theorem finish_stack (s : State) (p : Word) (r : RunState) (o : TickOutcome) : (s.finish p r o).stack = s.stack := rfl
@[simp] theorem finish_sp (s : State) (p : Word) (r : RunState) (o : TickOutcome) : (s.finish p r o).sp = s.sp := rfl
@[simp] theorem finish_dt (s : State) (p : Word) (r : RunState) (o : TickOutcome) : (s.finish p r o).dt = s.dt := rfl
@[simp] theorem finish_st (s : State) (p : Word) (r : RunState) (o : TickOutcome) : (s.finish p r o).st = s.st := rfl
@[simp] theorem finish_fb (s : State) (p : Word) (r : RunState) (o : TickOutcome) : (s.finish p r o).fb = s.fb := rfl
@[simp] theorem finish_run (s : State) (p : Word) (r : RunState) (o : TickOutcome) : (s.finish p r o).run = r := rfl
@[simp] theorem finish_soundLatch (s : State) (p : Word) (r : RunState) (o : TickOutcome) : (s.finish p r o).soundLatch = s.soundLatch := rfl
@[simp] theorem finish_loadAdmitted (s : State) (p : Word) (r : RunState) (o : TickOutcome) : (s.finish p r o).loadAdmitted = s.loadAdmitted := rfl
@[simp] theorem finish_keys (s : State) (p : Word) (r : RunState) (o : TickOutcome) : (s.finish p r o).keys = s.keys := rfl
@[simp] theorem finish_calls (s : State) (p : Word) (r : RunState) (o : TickOutcome) : (s.finish p r o).calls = s.calls := rfl
@[simp] theorem finish_result (s : State) (p : Word) (r : RunState) (o : TickOutcome) : (s.finish p r o).result = .tick o := rfl
@[simp] theorem finish_draws (s : State) (p : Word) (r : RunState) (o : TickOutcome) : (s.finish p r o).draws = s.draws := rfl
@[simp] theorem finish_reg (s : State) (p : Word) (r : RunState) (o : TickOutcome) (y : Reg) : (s.finish p r o).reg y = s.reg y := rfl

@[simp] theorem closeLoad_mem (s : State) : (s.closeLoad).mem = s.mem := rfl
@[simp] theorem closeLoad_v (s : State) : (s.closeLoad).v = s.v := rfl
@[simp] theorem closeLoad_i (s : State) : (s.closeLoad).i = s.i := rfl
@[simp] theorem closeLoad_pc (s : State) : (s.closeLoad).pc = s.pc := rfl
@[simp] theorem closeLoad_stack (s : State) : (s.closeLoad).stack = s.stack := rfl
@[simp] theorem closeLoad_sp (s : State) : (s.closeLoad).sp = s.sp := rfl
@[simp] theorem closeLoad_dt (s : State) : (s.closeLoad).dt = s.dt := rfl
@[simp] theorem closeLoad_st (s : State) : (s.closeLoad).st = s.st := rfl
@[simp] theorem closeLoad_fb (s : State) : (s.closeLoad).fb = s.fb := rfl
@[simp] theorem closeLoad_run (s : State) : (s.closeLoad).run = s.run := rfl
@[simp] theorem closeLoad_soundLatch (s : State) : (s.closeLoad).soundLatch = s.soundLatch := rfl
@[simp] theorem closeLoad_loadAdmitted (s : State) : (s.closeLoad).loadAdmitted = false := rfl
@[simp] theorem closeLoad_keys (s : State) : (s.closeLoad).keys = s.keys := rfl
@[simp] theorem closeLoad_calls (s : State) : (s.closeLoad).calls = s.calls := rfl
@[simp] theorem closeLoad_result (s : State) : (s.closeLoad).result = s.result := rfl
@[simp] theorem closeLoad_draws (s : State) : (s.closeLoad).draws = s.draws := rfl
@[simp] theorem closeLoad_reg (s : State) (y : Reg) : (s.closeLoad).reg y = s.reg y := rfl

@[simp] theorem answer_mem (s : State) (r : CallResult) : (s.answer r).mem = s.mem := rfl
@[simp] theorem answer_v (s : State) (r : CallResult) : (s.answer r).v = s.v := rfl
@[simp] theorem answer_i (s : State) (r : CallResult) : (s.answer r).i = s.i := rfl
@[simp] theorem answer_pc (s : State) (r : CallResult) : (s.answer r).pc = s.pc := rfl
@[simp] theorem answer_stack (s : State) (r : CallResult) : (s.answer r).stack = s.stack := rfl
@[simp] theorem answer_sp (s : State) (r : CallResult) : (s.answer r).sp = s.sp := rfl
@[simp] theorem answer_dt (s : State) (r : CallResult) : (s.answer r).dt = s.dt := rfl
@[simp] theorem answer_st (s : State) (r : CallResult) : (s.answer r).st = s.st := rfl
@[simp] theorem answer_fb (s : State) (r : CallResult) : (s.answer r).fb = s.fb := rfl
@[simp] theorem answer_run (s : State) (r : CallResult) : (s.answer r).run = s.run := rfl
@[simp] theorem answer_soundLatch (s : State) (r : CallResult) : (s.answer r).soundLatch = s.soundLatch := rfl
@[simp] theorem answer_loadAdmitted (s : State) (r : CallResult) : (s.answer r).loadAdmitted = s.loadAdmitted := rfl
@[simp] theorem answer_keys (s : State) (r : CallResult) : (s.answer r).keys = s.keys := rfl
@[simp] theorem answer_calls (s : State) (r : CallResult) : (s.answer r).calls = s.calls := rfl
@[simp] theorem answer_result (s : State) (r : CallResult) : (s.answer r).result = r := rfl
@[simp] theorem answer_draws (s : State) (r : CallResult) : (s.answer r).draws = s.draws := rfl
@[simp] theorem answer_reg (s : State) (r : CallResult) (y : Reg) : (s.answer r).reg y = s.reg y := rfl

@[simp] theorem withCalls_mem (s : State) (cs : List HostCall) : (s.withCalls cs).mem = s.mem := rfl
@[simp] theorem withCalls_v (s : State) (cs : List HostCall) : (s.withCalls cs).v = s.v := rfl
@[simp] theorem withCalls_i (s : State) (cs : List HostCall) : (s.withCalls cs).i = s.i := rfl
@[simp] theorem withCalls_pc (s : State) (cs : List HostCall) : (s.withCalls cs).pc = s.pc := rfl
@[simp] theorem withCalls_stack (s : State) (cs : List HostCall) : (s.withCalls cs).stack = s.stack := rfl
@[simp] theorem withCalls_sp (s : State) (cs : List HostCall) : (s.withCalls cs).sp = s.sp := rfl
@[simp] theorem withCalls_dt (s : State) (cs : List HostCall) : (s.withCalls cs).dt = s.dt := rfl
@[simp] theorem withCalls_st (s : State) (cs : List HostCall) : (s.withCalls cs).st = s.st := rfl
@[simp] theorem withCalls_fb (s : State) (cs : List HostCall) : (s.withCalls cs).fb = s.fb := rfl
@[simp] theorem withCalls_run (s : State) (cs : List HostCall) : (s.withCalls cs).run = s.run := rfl
@[simp] theorem withCalls_soundLatch (s : State) (cs : List HostCall) : (s.withCalls cs).soundLatch = s.soundLatch := rfl
@[simp] theorem withCalls_loadAdmitted (s : State) (cs : List HostCall) : (s.withCalls cs).loadAdmitted = s.loadAdmitted := rfl
@[simp] theorem withCalls_keys (s : State) (cs : List HostCall) : (s.withCalls cs).keys = s.keys := rfl
@[simp] theorem withCalls_calls (s : State) (cs : List HostCall) : (s.withCalls cs).calls = cs := rfl
@[simp] theorem withCalls_result (s : State) (cs : List HostCall) : (s.withCalls cs).result = s.result := rfl
@[simp] theorem withCalls_draws (s : State) (cs : List HostCall) : (s.withCalls cs).draws = s.draws := rfl
@[simp] theorem withCalls_reg (s : State) (cs : List HostCall) (y : Reg) : (s.withCalls cs).reg y = s.reg y := rfl

@[simp] theorem faultWith_mem (s : State) (e : VmError) : (s.faultWith e).mem = s.mem := rfl
@[simp] theorem faultWith_v (s : State) (e : VmError) : (s.faultWith e).v = s.v := rfl
@[simp] theorem faultWith_i (s : State) (e : VmError) : (s.faultWith e).i = s.i := rfl
@[simp] theorem faultWith_pc (s : State) (e : VmError) : (s.faultWith e).pc = s.pc := rfl
@[simp] theorem faultWith_stack (s : State) (e : VmError) : (s.faultWith e).stack = s.stack := rfl
@[simp] theorem faultWith_sp (s : State) (e : VmError) : (s.faultWith e).sp = s.sp := rfl
@[simp] theorem faultWith_dt (s : State) (e : VmError) : (s.faultWith e).dt = s.dt := rfl
@[simp] theorem faultWith_st (s : State) (e : VmError) : (s.faultWith e).st = s.st := rfl
@[simp] theorem faultWith_fb (s : State) (e : VmError) : (s.faultWith e).fb = s.fb := rfl
@[simp] theorem faultWith_run (s : State) (e : VmError) : (s.faultWith e).run = .faulted e := rfl
@[simp] theorem faultWith_soundLatch (s : State) (e : VmError) : (s.faultWith e).soundLatch = s.soundLatch := rfl
@[simp] theorem faultWith_loadAdmitted (s : State) (e : VmError) : (s.faultWith e).loadAdmitted = s.loadAdmitted := rfl
@[simp] theorem faultWith_keys (s : State) (e : VmError) : (s.faultWith e).keys = s.keys := rfl
@[simp] theorem faultWith_calls (s : State) (e : VmError) : (s.faultWith e).calls = s.calls := rfl
@[simp] theorem faultWith_result (s : State) (e : VmError) : (s.faultWith e).result = .tick (.error e) := rfl
@[simp] theorem faultWith_draws (s : State) (e : VmError) : (s.faultWith e).draws = s.draws := rfl
@[simp] theorem faultWith_reg (s : State) (e : VmError) (y : Reg) : (s.faultWith e).reg y = s.reg y := rfl

@[simp] theorem setRegThenFlag_mem (s : State) (x : Reg) (b : Byte) (c : Bool) : (s.setRegThenFlag x b c).mem = s.mem := rfl
@[simp] theorem setRegThenFlag_i (s : State) (x : Reg) (b : Byte) (c : Bool) : (s.setRegThenFlag x b c).i = s.i := rfl
@[simp] theorem setRegThenFlag_pc (s : State) (x : Reg) (b : Byte) (c : Bool) : (s.setRegThenFlag x b c).pc = s.pc := rfl
@[simp] theorem setRegThenFlag_stack (s : State) (x : Reg) (b : Byte) (c : Bool) : (s.setRegThenFlag x b c).stack = s.stack := rfl
@[simp] theorem setRegThenFlag_sp (s : State) (x : Reg) (b : Byte) (c : Bool) : (s.setRegThenFlag x b c).sp = s.sp := rfl
@[simp] theorem setRegThenFlag_dt (s : State) (x : Reg) (b : Byte) (c : Bool) : (s.setRegThenFlag x b c).dt = s.dt := rfl
@[simp] theorem setRegThenFlag_st (s : State) (x : Reg) (b : Byte) (c : Bool) : (s.setRegThenFlag x b c).st = s.st := rfl
@[simp] theorem setRegThenFlag_fb (s : State) (x : Reg) (b : Byte) (c : Bool) : (s.setRegThenFlag x b c).fb = s.fb := rfl
@[simp] theorem setRegThenFlag_run (s : State) (x : Reg) (b : Byte) (c : Bool) : (s.setRegThenFlag x b c).run = s.run := rfl
@[simp] theorem setRegThenFlag_soundLatch (s : State) (x : Reg) (b : Byte) (c : Bool) : (s.setRegThenFlag x b c).soundLatch = s.soundLatch := rfl
@[simp] theorem setRegThenFlag_loadAdmitted (s : State) (x : Reg) (b : Byte) (c : Bool) : (s.setRegThenFlag x b c).loadAdmitted = s.loadAdmitted := rfl
@[simp] theorem setRegThenFlag_keys (s : State) (x : Reg) (b : Byte) (c : Bool) : (s.setRegThenFlag x b c).keys = s.keys := rfl
@[simp] theorem setRegThenFlag_calls (s : State) (x : Reg) (b : Byte) (c : Bool) : (s.setRegThenFlag x b c).calls = s.calls := rfl
@[simp] theorem setRegThenFlag_result (s : State) (x : Reg) (b : Byte) (c : Bool) : (s.setRegThenFlag x b c).result = s.result := rfl
@[simp] theorem setRegThenFlag_draws (s : State) (x : Reg) (b : Byte) (c : Bool) : (s.setRegThenFlag x b c).draws = s.draws := rfl

/-- A register reads as the last value written to it, and every other register as before. -/
theorem setReg_reg (s : State) (x y : Reg) (b : Byte) : (s.setReg x b).reg y = if y = x then b else s.reg y := by
  by_cases h : y = x
  · subst h; simp [reg, setReg]
  · have hv : x.val ≠ y.val := fun hxy => h (Fin.ext hxy.symm)
    simp [reg, setReg, h, Vector.getElem_set_ne _ _ hv]

@[simp] theorem setReg_reg_self (s : State) (x : Reg) (b : Byte) : (s.setReg x b).reg x = b := by simp [setReg_reg]

theorem setReg_reg_of_ne (s : State) {x y : Reg} (b : Byte) (h : y ≠ x) : (s.setReg x b).reg y = s.reg y := by
  simp [setReg_reg, h]

/-- The flag wins in VF; elsewhere the result is written to its register only. -/
theorem setRegThenFlag_reg (s : State) (x y : Reg) (b : Byte) (c : Bool) :
    (s.setRegThenFlag x b c).reg y = if y = vf then flagByte c else if y = x then b else s.reg y := by
  simp [setRegThenFlag, setReg_reg]

/-- The operands of an indexed access depend on I only. -/
theorem indexed_eq (s : State) (k : Nat) : s.indexed k = s.i.toNat + k := rfl

end Sys2Proof.Machine.State
end

