-- ==== Sys2Proof/Laws/Ops.lean ====
section
/-! SUPPORT. One lemma per shared operation: everything it can answer. -/

namespace Sys2Proof.Machine

theorem raise_eq (e : VmError) (s : State) : raise e s = .next (s.faultWith e) := rfl
theorem goTo_eq (p : Word) (s : State) : goTo p s = .next (s.finish p .running .continued) := rfl
theorem goOn_eq (s : State) : goOn s = .next (s.finish (s.pc + 2) .running .continued) := rfl
theorem goOnRedraw_eq (s : State) : goOnRedraw s = .next (s.finish (s.pc + 2) .running .redraw) := rfl
theorem skipIf_eq (c : Bool) (s : State) :
    skipIf c s = .next (s.finish (if c then s.pc + 4 else s.pc + 2) .running .continued) := rfl

/-- The range check passes exactly where the range is empty or inside the address space. -/
theorem checkRange_eq_none {kind : AccessKind} {a n : Nat} :
    checkRange kind a n = none ↔ n = 0 ∨ a + n ≤ 4096 := by
  simp only [checkRange, Config.memSize]
  split <;> simp <;> omega

/-- Where it does not pass it raises `IndexOutOfRange(kind, max(a, MEM_SIZE))`. -/
theorem checkRange_eq_some {kind : AccessKind} {a n : Nat} (h : 0 < n ∧ 4096 < a + n) :
    checkRange kind a n = some (.indexOutOfRange kind (max a 4096)) := by
  simp only [checkRange, Config.memSize, h, and_self, if_true]

theorem withRange_of_inside {kind : AccessKind} {a n : Nat} {s : State} {body : Result}
    (h : n = 0 ∨ a + n ≤ 4096) : withRange kind a n s body = body := by
  simp only [withRange, checkRange_eq_none.2 h]

theorem withRange_of_outside {kind : AccessKind} {a n : Nat} {s : State} {body : Result}
    (h : 0 < n ∧ 4096 < a + n) :
    withRange kind a n s body = .next (s.faultWith (.indexOutOfRange kind (max a 4096))) := by
  simp only [withRange, checkRange_eq_some h, raise]

/-- What a range-checked body can answer. -/
theorem withRange_cases (kind : AccessKind) (a n : Nat) (s : State) (body : Result) :
    ((n = 0 ∨ a + n ≤ 4096) ∧ withRange kind a n s body = body) ∨
    ((0 < n ∧ 4096 < a + n) ∧
      withRange kind a n s body = .next (s.faultWith (.indexOutOfRange kind (max a 4096)))) := by
  by_cases h : 0 < n ∧ 4096 < a + n
  · exact .inr ⟨h, withRange_of_outside h⟩
  · exact .inl ⟨by omega, withRange_of_inside (by omega)⟩

theorem withKey_of_lt {value : Byte} {s : State} {body : Fin 16 → Result} (h : value.toNat < 16) :
    withKey value s body = body ⟨value.toNat, h⟩ := by
  simp [withKey, h]

theorem withKey_of_ge {value : Byte} {s : State} {body : Fin 16 → Result} (h : 16 ≤ value.toNat) :
    withKey value s body = .next (s.faultWith (.indexOutOfRange .key value.toNat)) := by
  simp [withKey, Nat.not_lt.2 h, raise]

/-- The fetch answers the big-endian word at PC where PC + 2 is inside the address space. -/
theorem fetch_of_inside {s : State} (h : s.pc.toNat + 2 ≤ 4096) :
    fetch s = .ok (wordOfBytes (s.mem.byte s.pc.toNat) (s.mem.byte (s.pc.toNat + 1))) := by
  simp only [fetch, checkRange_eq_none.2 (.inr h)]

theorem fetch_of_outside {s : State} (h : 4096 < s.pc.toNat + 2) :
    fetch s = .error (.indexOutOfRange .fetch (max s.pc.toNat 4096)) := by
  simp only [fetch, checkRange_eq_some ⟨by omega, h⟩]

/-- A pixel reads as the last value written to it, and every other pixel as before. -/
theorem Framebuffer.pixel_setPixel (f : Framebuffer) (px qx : Fin 64) (py qy : Fin 32) (b : Bool) :
    (f.setPixel px py b).pixel qx qy = if qx = px ∧ qy = py then b else f.pixel qx qy := by
  unfold Framebuffer.setPixel Framebuffer.pixel
  simp only [Fin.getElem_fin, Vector.getElem_set, Fin.ext_iff]
  by_cases hy : py.val = qy.val
  · have hy' : qy.val = py.val := hy.symm
    by_cases hx : px.val = qx.val
    · have hx' : qx.val = px.val := hx.symm
      simp [hy', hx']
    · have hx' : ¬ qx.val = px.val := fun h => hx h.symm
      simp [hy', hx, hx']
  · have hy' : ¬ qy.val = py.val := fun h => hy h.symm
    simp [hy, hy']

@[simp] theorem Framebuffer.pixel_clear (px : Fin 64) (py : Fin 32) : Framebuffer.clear.pixel px py = false := by
  simp [Framebuffer.clear, Framebuffer.pixel]

/-- The registers of a block transfer are exactly V0..VX. -/
theorem mem_regsUpTo {x k : Reg} : k ∈ regsUpTo x ↔ k ≤ x := by
  simp [regsUpTo, List.mem_finRange]

theorem mem_pressedKeys {keys : Keypad} {k : Fin 16} : k ∈ pressedKeys keys ↔ keys[k] = true := by
  simp [pressedKeys, List.mem_finRange]

end Sys2Proof.Machine
end

