-- ==== Sys2Proof/Laws/Display.lean ====
section
/-! SUPPORT. What toggling pixels does, which pixels a sprite has lit, and when a draw collides, once. -/

namespace Sys2Proof.Machine

/-- Two framebuffers with the same pixels are equal. -/
theorem Framebuffer.ext_pixel {f g : Framebuffer} (h : ∀ px py, f.pixel px py = g.pixel px py) : f = g := by
  apply Vector.ext
  intro j hj
  apply Vector.ext
  intro k hk
  exact h ⟨k, hk⟩ ⟨j, hj⟩

theorem foldl_toggle_pixel (before f : Framebuffer) (lit : List (Fin 64 × Fin 32)) (qx : Fin 64) (qy : Fin 32) :
    (lit.foldl (fun f p => f.setPixel p.1 p.2 (!before.pixel p.1 p.2)) f).pixel qx qy =
      if (qx, qy) ∈ lit then !before.pixel qx qy else f.pixel qx qy := by
  induction lit generalizing f with
  | nil => simp
  | cons p lit ih =>
    obtain ⟨a, b⟩ := p
    simp only [List.foldl_cons, ih, Framebuffer.pixel_setPixel]
    by_cases h1 : (qx, qy) ∈ lit <;> by_cases h2 : qx = a ∧ qy = b <;> simp [h1, h2]

/-- A lit pixel is the complement of what it was before, every other pixel is as it was. -/
theorem togglePixels_pixel (before : Framebuffer) (lit : List (Fin 64 × Fin 32)) (qx : Fin 64) (qy : Fin 32) :
    (togglePixels before lit).pixel qx qy = if (qx, qy) ∈ lit then !before.pixel qx qy else before.pixel qx qy :=
  foldl_toggle_pixel before before lit qx qy

theorem collides_eq_true {before : Framebuffer} {lit : List (Fin 64 × Fin 32)} :
    collides before lit = true ↔ ∃ px py, (px, py) ∈ lit ∧ before.pixel px py = true := by
  simp only [collides, List.any_eq_true, Prod.exists]

/-- The lit pixels of a sprite are the pixels it covers. -/
theorem mem_litPixels {s : State} {x0 y0 : Byte} {n : Nat} {px : Fin 64} {py : Fin 32} :
    (px, py) ∈ s.litPixels x0 y0 n ↔ SpriteCovers s x0 y0 n px py := by
  simp only [State.litPixels, List.mem_flatMap, List.mem_range, litInRow, List.mem_map, List.mem_filter, SpriteCovers,
    Prod.mk.injEq, State.indexed]
  constructor
  · rintro ⟨r, hr, c, ⟨hc, hb⟩, h1, h2⟩
    exact ⟨r, c, hr, hc, by rw [← h1]; rfl, by rw [← h2]; rfl, hb⟩
  · rintro ⟨r, c, hr, hc, h1, h2, hb⟩
    exact ⟨r, hr, c, ⟨hc, hb⟩, Fin.ext h1.symm, Fin.ext h2.symm⟩

end Sys2Proof.Machine
end

