-- ==== Sys2Proof/Laws/PerInstr.lean ====
section
/-! SUPPORT. Statements about every instruction, one lemma per constructor. Family EncodeRow: the word of an instruction has the
fixed bits of its row of the opcode table (30_encoding.md R75). -/

namespace Sys2Proof.Laws.EncodeRow

/-- The row is one of the table's, and the instruction's word selects it. -/
def Statement (i : Instr) : Prop := i.row ∈ opcodeTable ∧ i.row.selects (encode i) = true

theorem cls : Statement .cls := ⟨by decide, by decide⟩
theorem ret : Statement .ret := ⟨by decide, by decide⟩
theorem jp (nnn : Addr12) : Statement (.jp nnn) :=
  ⟨by simp only [Instr.row]; decide, selects_of_and ((and_mask_fa 0x1#4 nnn).trans rfl)⟩
theorem call (nnn : Addr12) : Statement (.call nnn) :=
  ⟨by simp only [Instr.row]; decide, selects_of_and ((and_mask_fa 0x2#4 nnn).trans rfl)⟩
theorem seImm (x : Reg) (nn : Byte) : Statement (.seImm x nn) :=
  ⟨by simp only [Instr.row]; decide, selects_of_and ((and_mask_fxi 0x3#4 (regBits x) nn).trans rfl)⟩
theorem sneImm (x : Reg) (nn : Byte) : Statement (.sneImm x nn) :=
  ⟨by simp only [Instr.row]; decide, selects_of_and ((and_mask_fxi 0x4#4 (regBits x) nn).trans rfl)⟩
theorem seReg (x y : Reg) : Statement (.seReg x y) :=
  ⟨by simp only [Instr.row]; decide, selects_of_and ((and_mask_fxy 0x5#4 (regBits x) (regBits y) 0x0#4).trans rfl)⟩
theorem ldImm (x : Reg) (nn : Byte) : Statement (.ldImm x nn) :=
  ⟨by simp only [Instr.row]; decide, selects_of_and ((and_mask_fxi 0x6#4 (regBits x) nn).trans rfl)⟩
theorem addImm (x : Reg) (nn : Byte) : Statement (.addImm x nn) :=
  ⟨by simp only [Instr.row]; decide, selects_of_and ((and_mask_fxi 0x7#4 (regBits x) nn).trans rfl)⟩
theorem ldReg (x y : Reg) : Statement (.ldReg x y) :=
  ⟨by simp only [Instr.row]; decide, selects_of_and ((and_mask_fxy 0x8#4 (regBits x) (regBits y) 0x0#4).trans rfl)⟩
theorem orReg (x y : Reg) : Statement (.orReg x y) :=
  ⟨by simp only [Instr.row]; decide, selects_of_and ((and_mask_fxy 0x8#4 (regBits x) (regBits y) 0x1#4).trans rfl)⟩
theorem andReg (x y : Reg) : Statement (.andReg x y) :=
  ⟨by simp only [Instr.row]; decide, selects_of_and ((and_mask_fxy 0x8#4 (regBits x) (regBits y) 0x2#4).trans rfl)⟩
theorem xorReg (x y : Reg) : Statement (.xorReg x y) :=
  ⟨by simp only [Instr.row]; decide, selects_of_and ((and_mask_fxy 0x8#4 (regBits x) (regBits y) 0x3#4).trans rfl)⟩
theorem addReg (x y : Reg) : Statement (.addReg x y) :=
  ⟨by simp only [Instr.row]; decide, selects_of_and ((and_mask_fxy 0x8#4 (regBits x) (regBits y) 0x4#4).trans rfl)⟩
theorem subReg (x y : Reg) : Statement (.subReg x y) :=
  ⟨by simp only [Instr.row]; decide, selects_of_and ((and_mask_fxy 0x8#4 (regBits x) (regBits y) 0x5#4).trans rfl)⟩
theorem shr (x y : Reg) : Statement (.shr x y) :=
  ⟨by simp only [Instr.row]; decide, selects_of_and ((and_mask_fxy 0x8#4 (regBits x) (regBits y) 0x6#4).trans rfl)⟩
theorem subnReg (x y : Reg) : Statement (.subnReg x y) :=
  ⟨by simp only [Instr.row]; decide, selects_of_and ((and_mask_fxy 0x8#4 (regBits x) (regBits y) 0x7#4).trans rfl)⟩
theorem shl (x y : Reg) : Statement (.shl x y) :=
  ⟨by simp only [Instr.row]; decide, selects_of_and ((and_mask_fxy 0x8#4 (regBits x) (regBits y) 0xE#4).trans rfl)⟩
theorem sneReg (x y : Reg) : Statement (.sneReg x y) :=
  ⟨by simp only [Instr.row]; decide, selects_of_and ((and_mask_fxy 0x9#4 (regBits x) (regBits y) 0x0#4).trans rfl)⟩
theorem ldI (nnn : Addr12) : Statement (.ldI nnn) :=
  ⟨by simp only [Instr.row]; decide, selects_of_and ((and_mask_fa 0xA#4 nnn).trans rfl)⟩
theorem jpV0 (nnn : Addr12) : Statement (.jpV0 nnn) :=
  ⟨by simp only [Instr.row]; decide, selects_of_and ((and_mask_fa 0xB#4 nnn).trans rfl)⟩
theorem rnd (x : Reg) (nn : Byte) : Statement (.rnd x nn) :=
  ⟨by simp only [Instr.row]; decide, selects_of_and ((and_mask_fxi 0xC#4 (regBits x) nn).trans rfl)⟩
theorem drw (x y : Reg) (n : Nat) : Statement (.drw x y n) :=
  ⟨by simp only [Instr.row]; decide, selects_of_and ((and_mask_fxyn 0xD#4 (regBits x) (regBits y) (BitVec.ofNat 4 n)).trans rfl)⟩
theorem skp (x : Reg) : Statement (.skp x) :=
  ⟨by simp only [Instr.row]; decide, selects_of_and ((and_mask_fxm 0xE#4 (regBits x) 0x9E#8).trans rfl)⟩
theorem sknp (x : Reg) : Statement (.sknp x) :=
  ⟨by simp only [Instr.row]; decide, selects_of_and ((and_mask_fxm 0xE#4 (regBits x) 0xA1#8).trans rfl)⟩
theorem ldVxDt (x : Reg) : Statement (.ldVxDt x) :=
  ⟨by simp only [Instr.row]; decide, selects_of_and ((and_mask_fxm 0xF#4 (regBits x) 0x07#8).trans rfl)⟩
theorem ldVxK (x : Reg) : Statement (.ldVxK x) :=
  ⟨by simp only [Instr.row]; decide, selects_of_and ((and_mask_fxm 0xF#4 (regBits x) 0x0A#8).trans rfl)⟩
theorem ldDtVx (x : Reg) : Statement (.ldDtVx x) :=
  ⟨by simp only [Instr.row]; decide, selects_of_and ((and_mask_fxm 0xF#4 (regBits x) 0x15#8).trans rfl)⟩
theorem ldStVx (x : Reg) : Statement (.ldStVx x) :=
  ⟨by simp only [Instr.row]; decide, selects_of_and ((and_mask_fxm 0xF#4 (regBits x) 0x18#8).trans rfl)⟩
theorem addI (x : Reg) : Statement (.addI x) :=
  ⟨by simp only [Instr.row]; decide, selects_of_and ((and_mask_fxm 0xF#4 (regBits x) 0x1E#8).trans rfl)⟩
theorem ldF (x : Reg) : Statement (.ldF x) :=
  ⟨by simp only [Instr.row]; decide, selects_of_and ((and_mask_fxm 0xF#4 (regBits x) 0x29#8).trans rfl)⟩
theorem ldB (x : Reg) : Statement (.ldB x) :=
  ⟨by simp only [Instr.row]; decide, selects_of_and ((and_mask_fxm 0xF#4 (regBits x) 0x33#8).trans rfl)⟩
theorem ldMemVx (x : Reg) : Statement (.ldMemVx x) :=
  ⟨by simp only [Instr.row]; decide, selects_of_and ((and_mask_fxm 0xF#4 (regBits x) 0x55#8).trans rfl)⟩
theorem ldVxMem (x : Reg) : Statement (.ldVxMem x) :=
  ⟨by simp only [Instr.row]; decide, selects_of_and ((and_mask_fxm 0xF#4 (regBits x) 0x65#8).trans rfl)⟩

end Sys2Proof.Laws.EncodeRow
end

