-- ==== Sys2Proof/Laws/Step.lean ====
section
/-! SUPPORT. What a step, a tick and each entry point can do, once: later proofs cite these and do not unfold them. -/

namespace Sys2Proof.Machine

theorem step_of_nil {s : State} (h : s.calls = []) : step s = instructionTick s := by simp [step, h]

theorem step_of_cons {s : State} {c : HostCall} {rest : List HostCall} (h : s.calls = c :: rest) :
    step s = runCall c (s.withCalls rest) := by simp [step, h]

theorem heldFault_eq_some {s : State} {e : VmError} : s.heldFault = some e ↔ s.run = .faulted e := by
  unfold State.heldFault; split <;> simp_all

theorem heldFault_eq_none {s : State} : s.heldFault = none ↔ ∀ e, s.run ≠ .faulted e := by
  unfold State.heldFault; split <;> simp_all

/-- While faulted, a tick changes nothing and returns the held error. -/
theorem instructionTick_of_faulted {s : State} {e : VmError} (h : s.run = .faulted e) :
    instructionTick s = .next (s.answer (.tick (.error e))) := by simp [instructionTick, h]

/-- Otherwise it closes ROM load and runs the instruction at PC. -/
theorem instructionTick_of_unfaulted {s : State} (h : s.heldFault = none) :
    instructionTick s = runAtPc s.closeLoad := by
  cases hr : s.run with
  | faulted e => exact absurd hr (heldFault_eq_none.1 h e)
  | running => simp [instructionTick, hr]
  | waitingForKey => simp [instructionTick, hr]

/-- A step that is a tick is one, listed or not. -/
theorem step_of_tick {s : State} (h : s.tickIsNext) : step s = instructionTick (s.withCalls s.calls.tail) := by
  cases hc : s.calls with
  | nil =>
    have hs : s.withCalls [] = s := by rw [← hc]; rfl
    rw [step_of_nil hc, List.tail_nil, hs]
  | cons c rest =>
    have hc' : c = .tick := by simpa [State.tickIsNext, hc] using h
    subst hc'
    rw [step_of_cons hc]; rfl

/-- A word that is unknown is carried raw. -/
theorem decodeWord_unknown {w raw : Word} (h : decodeWord w = .unknown raw) : raw = w := by
  unfold decodeWord decodeZero decodeEight decodeE decodeF at h
  repeat' split at h
  all_goals first | (injection h; done) | (injection h with h; exact h.symm)

/-- What running the instruction at PC can be: a fetch error, an unknown word, or the decoded instruction. -/
theorem runAtPc_cases (s : State) :
    (4096 < s.pc.toNat + 2 ∧
      runAtPc s = .next (s.faultWith (.indexOutOfRange .fetch (max s.pc.toNat 4096)))) ∨
    (s.pc.toNat + 2 ≤ 4096 ∧ ∃ w, fetch s = .ok w ∧
      ((decodeWord w = .unknown w ∧ runAtPc s = .next (s.faultWith (.unknownInstruction w))) ∨
        ∃ ins, decodeWord w = .instr ins ∧ runAtPc s = exec ins s)) := by
  by_cases h : s.pc.toNat + 2 ≤ 4096
  · refine .inr ⟨h, _, fetch_of_inside h, ?_⟩
    cases hd : decodeWord (wordOfBytes (s.mem.byte s.pc.toNat) (s.mem.byte (s.pc.toNat + 1))) with
    | unknown raw =>
      have hr := decodeWord_unknown hd
      exact .inl ⟨by rw [hr], by simp only [runAtPc, fetch_of_inside h, hd, raise_eq, hr]⟩
    | instr ins => exact .inr ⟨ins, rfl, by simp only [runAtPc, fetch_of_inside h, hd]⟩
  · have h' : 4096 < s.pc.toNat + 2 := by omega
    exact .inl ⟨h', by simp only [runAtPc, fetch_of_outside h', raise_eq]⟩

/-- A run of one more step goes on from the state the step answers. -/
theorem run_succ_of_next {s t : State} (n : Nat) (h : step s = .next t) : core.run (n + 1) s = core.run n t := by
  have hs : core.step s = .next t := h
  simp only [Host.Core.run, hs]

/-- Package of the induction over steps: what holds at the start and is kept by every step holds after every run. -/
theorem run_induction {Inv : State → Prop} (keep : ∀ s t, Inv s → step s = .next t → Inv t) :
    ∀ (n : Nat) (s t : State), Inv s → core.run n s = .next t → Inv t := by
  intro n
  induction n with
  | zero => intro s t h hr; cases hr; exact h
  | succ n ih =>
    intro s t h hr
    cases hs : step s with
    | next u => rw [run_succ_of_next n hs] at hr; exact ih u t (keep s u h hs) hr
    | fault r => cases r
    | refused r =>
      have hs' : core.step s = .refused r := hs
      simp [Host.Core.run, hs'] at hr

end Sys2Proof.Machine
end

