-- ==== Sys2Proof/Laws/Transfer.lean ====
section
/-! SUPPORT. What a block store, a block load and the key pick do, once: later proofs cite these and do not unfold the folds. -/

namespace Sys2Proof.Machine

theorem regsUpTo_nodup (x : Reg) : (regsUpTo x).Nodup := (List.nodup_finRange 16).filter _

/-- Writing one byte per register changes memory and nothing else. -/
theorem foldl_memWrite_eq (a : Reg → Nat) (g : Reg → Byte) (l : List Reg) (s : State) :
    ∃ m, l.foldl (fun t k => t.memWrite (a k) (g k)) s = { s with mem := m } := by
  induction l generalizing s with
  | nil => exact ⟨s.mem, rfl⟩
  | cons k l ih => exact ih (s.memWrite (a k) (g k))

/-- Setting registers changes the registers and nothing else. -/
theorem foldl_setReg_eq (g : Reg → Byte) (l : List Reg) (s : State) :
    ∃ v, l.foldl (fun t k => t.setReg k (g k)) s = { s with v := v } := by
  induction l generalizing s with
  | nil => exact ⟨s.v, rfl⟩
  | cons k l ih => exact ih (s.setReg k (g k))

/-- A register reads as the last value set where it is listed, and as before elsewhere. -/
theorem foldl_setReg_reg (g : Reg → Byte) (l : List Reg) (s : State) (r : Reg) :
    (l.foldl (fun t k => t.setReg k (g k)) s).reg r = if r ∈ l then g r else s.reg r := by
  induction l generalizing s with
  | nil => simp
  | cons k l ih =>
    simp only [List.foldl_cons, ih, State.setReg_reg]
    by_cases h1 : r ∈ l <;> by_cases h2 : r = k <;> simp [h1, h2]

/-- Storing the listed registers `base + k` apart keeps memory canonical. -/
theorem foldl_memWrite_wf {base : Nat} (g : Reg → Byte) {l : List Reg} {s : State} (hwf : s.mem.wf = true)
    (hl : ∀ k ∈ l, base + k.val < 4096) : (l.foldl (fun t k => t.memWrite (base + k.val) (g k)) s).mem.wf = true := by
  induction l generalizing s with
  | nil => exact hwf
  | cons k l ih =>
    exact ih (s := s.memWrite (base + k.val) (g k)) (Memory.write_wf _ hwf (hl k (by simp)))
      (fun j hj => hl j (by simp [hj]))

/-- After it, the byte at `base + k` is register k's for a listed k, and every other byte is as before. -/
theorem foldl_memWrite_byte {base : Nat} (g : Reg → Byte) {l : List Reg} {s : State} (hwf : s.mem.wf = true)
    (hl : ∀ k ∈ l, base + k.val < 4096) :
    (∀ k ∈ l, (l.foldl (fun t k => t.memWrite (base + k.val) (g k)) s).mem.byte (base + k.val) = g k) ∧
    ∀ b, (∀ k ∈ l, b ≠ base + k.val) →
      (l.foldl (fun t k => t.memWrite (base + k.val) (g k)) s).mem.byte b = s.mem.byte b := by
  induction l generalizing s with
  | nil => exact ⟨by simp, fun _ _ => rfl⟩
  | cons k l ih =>
    have hw : (s.memWrite (base + k.val) (g k)).mem.wf = true := Memory.write_wf _ hwf (hl k (by simp))
    obtain ⟨h1, h2⟩ := ih hw (fun j hj => hl j (by simp [hj]))
    refine ⟨fun j hj => ?_, fun b hb => ?_⟩
    · by_cases hjl : j ∈ l
      · exact h1 j hjl
      · have hjk : j = k := by simpa [hjl] using hj
        subst hjk
        refine (h2 _ fun i hi e => hjl ?_).trans (Memory.byte_write_self hwf _ _)
        have : j = i := Fin.ext (by omega)
        exact this ▸ hi
    · exact (h2 b fun j hj => hb j (by simp [hj])).trans (Memory.byte_write_of_ne hwf _ (hb k (by simp)))

/-- No key is picked exactly where none is pressed. -/
theorem keyPick_eq_none {keys : Keypad} : keyPick (pressedKeys keys) = none ↔ ∀ k : Fin 16, keys[k] = false := by
  simp only [keyPick, List.head?_eq_none_iff, List.eq_nil_iff_forall_not_mem, mem_pressedKeys, Bool.not_eq_true]

/-- A picked key is pressed. -/
theorem pressed_of_keyPick {keys : Keypad} {k : Fin 16} (h : keyPick (pressedKeys keys) = some k) : keys[k] = true :=
  mem_pressedKeys.1 (List.mem_of_head? h)

end Sys2Proof.Machine
end

