-- ==== Sys2Proof/Tests/Slice0.lean ====
section
/-! SUPPORT. Tests: the WellFormed smoke, every constructor's decoding from a word written out from its pattern, one-step vectors of
spec/95_test_vectors.md, and a witness for every obligation that has hypotheses (a state and operands that meet them). -/

namespace Sys2Proof.Tests

open Machine

/-! Small states. -/

/-- The reset state with some registers set. -/
def regs (l : List (Reg × Byte)) : State := l.foldl (fun t p => t.setReg p.1 p.2) State.reset

/-- The keypad with these keys pressed. -/
def pressed (l : List (Fin 16)) : Keypad := l.foldl (fun k j => k.set j.val true) (Vector.replicate 16 false)

/-- What one step on the word `w` leaves, read by `look`. -/
def after {α : Type} (w : Nat) (s : State) (look : State → α) : Option α :=
  match step (s.withFetchWord 16 w) with
  | .next t => some (look t)
  | .fault _ => none
  | .refused _ => none

/-- What an instruction leaves, read by `look`. -/
def execd {α : Type} (ins : Instr) (s : State) (look : State → α) : Option α :=
  match exec ins s with
  | .next t => some (look t)
  | .fault _ => none
  | .refused _ => none

/-- What one listed call leaves, read by `look`. -/
def called {α : Type} (c : HostCall) (s : State) (look : State → α) : Option α :=
  match step { s with calls := [c] } with
  | .next t => some (look t)
  | .fault _ => none
  | .refused _ => none

/-- Every framebuffer pixel set. -/
def allSet : Framebuffer := Vector.replicate 32 (Vector.replicate 64 true)

/-! WellFormed: heights past the 4-bit field (30_encoding.md R73). -/

theorem test_wellFormed_refuses_height_16 : (Instr.drw 0 0 16).wellFormed = false := by decide
theorem test_wellFormed_accepts_height_15 : (Instr.drw 0 0 15).wellFormed = true := by decide

/-! Decoding: a word written out bit by bit from the pattern of 30_encoding.md R75, one per constructor. -/

theorem test_decode_cls : decodeWord 0b0000000011100000#16 = .instr .cls := by decide
theorem test_decode_ret : decodeWord 0b0000000011101110#16 = .instr .ret := by decide
theorem test_decode_jp : decodeWord 0b0001001000110100#16 = .instr (.jp 0x234) := by decide
theorem test_decode_call : decodeWord 0b0010010100000000#16 = .instr (.call 0x500) := by decide
theorem test_decode_seImm : decodeWord 0b0011001100010001#16 = .instr (.seImm 3 0x11) := by decide
theorem test_decode_sneImm : decodeWord 0b0100001100010000#16 = .instr (.sneImm 3 0x10) := by decide
theorem test_decode_seReg : decodeWord 0b0101000100100000#16 = .instr (.seReg 1 2) := by decide
theorem test_decode_ldImm : decodeWord 0b0110101011111111#16 = .instr (.ldImm 0xA 0xFF) := by decide
theorem test_decode_addImm : decodeWord 0b0111001000000010#16 = .instr (.addImm 2 0x02) := by decide
theorem test_decode_ldReg : decodeWord 0b1000001000010000#16 = .instr (.ldReg 2 1) := by decide
theorem test_decode_orReg : decodeWord 0b1000001000010001#16 = .instr (.orReg 2 1) := by decide
theorem test_decode_andReg : decodeWord 0b1000001000010010#16 = .instr (.andReg 2 1) := by decide
theorem test_decode_xorReg : decodeWord 0b1000001000010011#16 = .instr (.xorReg 2 1) := by decide
theorem test_decode_addReg : decodeWord 0b1000001000010100#16 = .instr (.addReg 2 1) := by decide
theorem test_decode_subReg : decodeWord 0b1000001000010101#16 = .instr (.subReg 2 1) := by decide
theorem test_decode_shr : decodeWord 0b1000001000010110#16 = .instr (.shr 2 1) := by decide
theorem test_decode_subnReg : decodeWord 0b1000001000010111#16 = .instr (.subnReg 2 1) := by decide
theorem test_decode_shl : decodeWord 0b1000001000011110#16 = .instr (.shl 2 1) := by decide
theorem test_decode_sneReg : decodeWord 0b1001000100100000#16 = .instr (.sneReg 1 2) := by decide
theorem test_decode_ldI : decodeWord 0b1010001100000000#16 = .instr (.ldI 0x300) := by decide
theorem test_decode_jpV0 : decodeWord 0b1011111111111111#16 = .instr (.jpV0 0xFFF) := by decide
theorem test_decode_rnd : decodeWord 0b1100001100001111#16 = .instr (.rnd 3 0x0F) := by decide
theorem test_decode_drw : decodeWord 0b1101111100010101#16 = .instr (.drw 0xF 1 5) := by decide
theorem test_decode_skp : decodeWord 0b1110010110011110#16 = .instr (.skp 5) := by decide
theorem test_decode_sknp : decodeWord 0b1110010110100001#16 = .instr (.sknp 5) := by decide
theorem test_decode_ldVxDt : decodeWord 0b1111001100000111#16 = .instr (.ldVxDt 3) := by decide
theorem test_decode_ldVxK : decodeWord 0b1111010100001010#16 = .instr (.ldVxK 5) := by decide
theorem test_decode_ldDtVx : decodeWord 0b1111001100010101#16 = .instr (.ldDtVx 3) := by decide
theorem test_decode_ldStVx : decodeWord 0b1111001100011000#16 = .instr (.ldStVx 3) := by decide
theorem test_decode_addI : decodeWord 0b1111001000011110#16 = .instr (.addI 2) := by decide
theorem test_decode_ldF : decodeWord 0b1111010000101001#16 = .instr (.ldF 4) := by decide
theorem test_decode_ldB : decodeWord 0b1111000000110011#16 = .instr (.ldB 0) := by decide
theorem test_decode_ldMemVx : decodeWord 0b1111001001010101#16 = .instr (.ldMemVx 2) := by decide
theorem test_decode_ldVxMem : decodeWord 0b1111001001100101#16 = .instr (.ldVxMem 2) := by decide

/-- Vectors T3 to T7: words that match no pattern exactly. -/
theorem test_decode_unknown : decodeWord 0x0123 = .unknown 0x0123 ∧ decodeWord 0x5121 = .unknown 0x5121 ∧
    decodeWord 0x9AB3 = .unknown 0x9AB3 ∧ decodeWord 0x8018 = .unknown 0x8018 ∧ decodeWord 0x801F = .unknown 0x801F ∧
    decodeWord 0xE0FF = .unknown 0xE0FF ∧ decodeWord 0xF0FF = .unknown 0xF0FF ∧ decodeWord 0xF000 = .unknown 0xF000 := by decide

/-! The tick (vectors T1, T8, T9, T10, T11, J19). -/

/-- T1: the tick right after reset fetches 0x0000, which is unknown. -/
theorem test_tick_after_reset :
    called .tick State.reset (fun t => (t.run, t.pc)) = some (.faulted (.unknownInstruction 0x0000), 0x200) := by decide
theorem test_tick_at_last_word :
    after 0x6005 { State.reset with pc := 0xFFE } (fun t => (t.reg 0, t.pc)) = some (5, 0x1000) := by decide
theorem test_tick_past_memory :
    called .tick { State.reset with pc := 0x1000 } (fun t => (t.run, t.pc)) =
      some (.faulted (.indexOutOfRange .fetch 0x1000), 0x1000) := by decide
theorem test_tick_at_last_byte :
    called .tick { State.reset with pc := 0xFFF } (fun t => t.run) =
      some (.faulted (.indexOutOfRange .fetch 0x1000)) := by decide
theorem test_tick_at_odd_pc :
    after 0x6107 { State.reset with pc := 0x301 } (fun t => (t.reg 1, t.pc)) = some (7, 0x303) := by decide

/-! Control transfer (vectors J3, J6, J7, J8, J9, J11, J12, J13 to J18, J20, J22, J23, J24). -/

theorem test_jp : after 0x1FFF State.reset (fun t => t.pc) = some 0xFFF := by decide
theorem test_call_sixteenth :
    after 0x2500 { State.reset with pc := 0x400, sp := 15 } (fun t => (t.stack[15], t.sp, t.pc)) =
      some (0x402, 16, 0x500) := by decide
theorem test_call_overflow :
    after 0x2500 { State.reset with pc := 0x400, sp := 16 } (fun t => (t.run, t.sp, t.pc)) =
      some (.faulted .stackOverflow, 16, 0x400) := by decide
theorem test_ret :
    after 0x00EE { State.reset with pc := 0x300, sp := 1, stack := State.reset.stack.set 0 0x202 }
      (fun t => (t.pc, t.sp, t.stack[0])) = some (0x202, 0, 0x202) := by decide
theorem test_ret_underflow :
    after 0x00EE { State.reset with pc := 0x300 } (fun t => (t.run, t.pc)) =
      some (.faulted .stackUnderflow, 0x300) := by decide
theorem test_jpV0_past_memory : after 0xBFFF (regs [(0, 0xFF)]) (fun t => t.pc) = some 0x10FE := by decide
theorem test_jpV0_uses_V0 : after 0xB500 (regs [(0, 0x04), (5, 0x99)]) (fun t => t.pc) = some 0x504 := by decide
theorem test_seImm : after 0x3310 (regs [(3, 0x10)]) (fun t => t.pc) = some 0x204 ∧
    after 0x3311 (regs [(3, 0x10)]) (fun t => t.pc) = some 0x202 := by decide
theorem test_sneImm : after 0x4311 (regs [(3, 0x10)]) (fun t => t.pc) = some 0x204 ∧
    after 0x4310 (regs [(3, 0x10)]) (fun t => t.pc) = some 0x202 := by decide
theorem test_seReg : after 0x5120 (regs [(1, 7), (2, 7)]) (fun t => t.pc) = some 0x204 ∧
    after 0x5120 (regs [(1, 7), (2, 8)]) (fun t => t.pc) = some 0x202 := by decide
theorem test_sneReg : after 0x9120 (regs [(1, 7), (2, 8)]) (fun t => t.pc) = some 0x204 ∧
    after 0x9110 (regs [(1, 7)]) (fun t => t.pc) = some 0x202 := by decide
theorem test_skp_reads_the_value :
    after 0xE59E { regs [(5, 3)] with keys := pressed [5] } (fun t => t.pc) = some 0x202 ∧
    after 0xE59E { regs [(5, 0xA)] with keys := pressed [0xA] } (fun t => t.pc) = some 0x204 := by decide
theorem test_sknp : after 0xE5A1 (regs [(5, 0xA)]) (fun t => t.pc) = some 0x204 ∧
    after 0xE5A1 { regs [(5, 0xA)] with keys := pressed [0xA] } (fun t => t.pc) = some 0x202 := by decide
theorem test_skip_key_out_of_range :
    after 0xE59E (regs [(5, 0x10)]) (fun t => (t.run, t.pc)) = some (.faulted (.indexOutOfRange .key 0x10), 0x200) ∧
    after 0xE5A1 (regs [(5, 0x10)]) (fun t => (t.run, t.pc)) = some (.faulted (.indexOutOfRange .key 0x10), 0x200) := by
  decide

/-! Registers (vectors A1 to A30). -/

theorem test_ldImm : after 0x6AFF State.reset (fun t => t.reg 0xA) = some 0xFF := by decide
theorem test_addImm_no_flag :
    after 0x7202 (regs [(2, 0xFF), (15, 0x55)]) (fun t => (t.reg 2, t.reg 15)) = some (0x01, 0x55) := by decide
theorem test_addImm_vf : after 0x7F01 (regs [(15, 1)]) (fun t => t.reg 15) = some 2 := by decide
theorem test_ldReg : after 0x8010 (regs [(1, 0x33)]) (fun t => (t.reg 0, t.reg 1)) = some (0x33, 0x33) := by decide
theorem test_orReg_no_flag :
    after 0x8011 (regs [(0, 0x0F), (1, 0xF0), (15, 7)]) (fun t => (t.reg 0, t.reg 15)) = some (0xFF, 7) := by decide
theorem test_andReg : after 0x8012 (regs [(0, 0x3C), (1, 0x0F)]) (fun t => t.reg 0) = some 0x0C := by decide
theorem test_xorReg : after 0x8013 (regs [(0, 0x3C), (1, 0x0F)]) (fun t => t.reg 0) = some 0x33 := by decide
theorem test_addReg_carry :
    after 0x8014 (regs [(0, 0xFF), (1, 0x01)]) (fun t => (t.reg 0, t.reg 15)) = some (0x00, 1) := by decide
theorem test_addReg_vf : after 0x8F14 (regs [(15, 0x10), (1, 0xF5)]) (fun t => t.reg 15) = some 1 := by decide
theorem test_subReg_borrow :
    after 0x8015 (regs [(0, 0x03), (1, 0x05)]) (fun t => (t.reg 0, t.reg 15)) = some (0xFE, 0) := by decide
theorem test_subReg_vf_source :
    after 0x80F5 (regs [(0, 0x00), (15, 0x01)]) (fun t => (t.reg 0, t.reg 15)) = some (0xFF, 0) := by decide
theorem test_shr_ignores_y :
    after 0x8016 (regs [(0, 0x05), (1, 0xFF)]) (fun t => (t.reg 0, t.reg 1, t.reg 15)) = some (0x02, 0xFF, 1) := by decide
theorem test_shr_vf : after 0x8FF6 (regs [(15, 0x03)]) (fun t => t.reg 15) = some 1 := by decide
theorem test_subnReg :
    after 0x8017 (regs [(0, 0x05), (1, 0x03)]) (fun t => (t.reg 0, t.reg 15)) = some (0xFE, 0) := by decide
theorem test_subnReg_equal :
    after 0x8017 (regs [(0, 0x09), (1, 0x09)]) (fun t => (t.reg 0, t.reg 15)) = some (0x00, 1) := by decide
theorem test_shl : after 0x801E (regs [(0, 0x81)]) (fun t => (t.reg 0, t.reg 15)) = some (0x02, 1) := by decide
theorem test_shl_vf : after 0x8FFE (regs [(15, 0x80)]) (fun t => t.reg 15) = some 1 := by decide
theorem test_rnd_draws_one_byte : after 0xC30F State.reset (fun t => (t.draws, t.pc)) = some (1, 0x202) := by decide

/-! Index register and memory (vectors M1 to M20). -/

theorem test_ldI : after 0xA300 State.reset (fun t => t.i) = some 0x300 := by decide
theorem test_addI_no_flag :
    after 0xF01E { regs [(0, 1)] with i := 0x0FFF } (fun t => (t.i, t.reg 15)) = some (0x1000, 0) := by decide
theorem test_addI_wraps : after 0xF01E { regs [(0, 2)] with i := 0xFFFF } (fun t => t.i) = some 1 := by decide
theorem test_ldF_low_nibble : after 0xF429 (regs [(4, 0x1A)]) (fun t => t.i) = some 0x32 := by decide
theorem test_ldB :
    after 0xF033 { regs [(0, 0x9C)] with i := 0x300 }
      (fun t => (t.mem.byte 0x300, t.mem.byte 0x301, t.mem.byte 0x302, t.i)) = some (1, 5, 6, 0x300) := by decide
theorem test_ldB_out_of_range :
    after 0xF033 { State.reset with i := 0xFFE } (fun t => t.run) =
      some (.faulted (.indexOutOfRange .bcd 0x1000)) := by decide
theorem test_ldMemVx :
    after 0xF255 { regs [(0, 0x11), (1, 0x22), (2, 0x33), (3, 0x44)] with i := 0x400 }
      (fun t => (t.mem.byte 0x400, t.mem.byte 0x401, t.mem.byte 0x402, t.mem.byte 0x403, t.i)) =
      some (0x11, 0x22, 0x33, 0, 0x400) := by decide
theorem test_ldMemVx_out_of_range :
    after 0xF155 { regs [(0, 0xAB)] with i := 0xFFF } (fun t => (t.run, t.mem.byte 0xFFF)) =
      some (.faulted (.indexOutOfRange .store 0x1000), 0) := by decide
theorem test_ldVxMem_glyphs :
    after 0xFF65 State.reset (fun t => (t.reg 0, t.reg 4, t.reg 5, t.reg 15)) = some (0xF0, 0xF0, 0x20, 0xF0) := by decide
theorem test_ldVxMem_out_of_range :
    after 0xF265 { State.reset with i := 0xFFE } (fun t => t.run) =
      some (.faulted (.indexOutOfRange .load 0x1000)) := by decide

/-! Framebuffer (vectors D2, D4, D5, D8, D9, D10). -/

theorem test_cls :
    after 0x00E0 { regs [(15, 3)] with fb := allSet } (fun t => (t.fb, t.reg 15, t.result)) =
      some (Framebuffer.clear, 3, .tick .redraw) := by decide
theorem test_drw_wraps :
    after 0xD012 (regs [(0, 0x3E), (1, 0x1F)])
      (fun t => (t.fb.pixel 62 31, t.fb.pixel 1 31, t.fb.pixel 2 31, t.fb.pixel 62 0, t.fb.pixel 63 0, t.fb.pixel 1 0)) =
      some (true, true, false, true, false, true) := by decide
theorem test_drw_vf_coordinate :
    after 0xDF11 (regs [(15, 0x0A)]) (fun t => (t.fb.pixel 9 0, t.fb.pixel 10 0, t.fb.pixel 13 0, t.fb.pixel 14 0, t.reg 15)) =
      some (false, true, true, false, 0) := by decide
theorem test_drw_empty :
    after 0xD010 { regs [(15, 1)] with i := 0x1000 } (fun t => (t.fb, t.reg 15, t.result)) =
      some (Framebuffer.clear, 0, .tick .redraw) := by decide
theorem test_drw_out_of_range :
    after 0xD015 { regs [(15, 1)] with i := 0xFFC } (fun t => (t.run, t.reg 15)) =
      some (.faulted (.indexOutOfRange .sprite 0x1000), 1) := by decide
theorem test_drw_collides :
    after 0xD015 { State.reset with fb := State.reset.fb.setPixel 3 4 true } (fun t => (t.fb.pixel 3 4, t.reg 15)) =
      some (false, 1) := by decide

/-! Timers and key-wait (vectors K1 to K8, TT1 to TT7). -/

theorem test_ldVxDt : after 0xF307 { State.reset with dt := 0x2A } (fun t => (t.reg 3, t.dt)) = some (0x2A, 0x2A) := by decide
theorem test_ldDtVx : after 0xF315 (regs [(3, 0x3C)]) (fun t => (t.dt, t.st)) = some (0x3C, 0) := by decide
theorem test_ldStVx :
    after 0xF318 (regs [(3, 5)]) (fun t => (t.st, t.dt, t.result, t.soundOn)) = some (5, 0, .tick .continued, true) := by decide
theorem test_ldVxK_blocks :
    after 0xF50A State.reset (fun t => (t.result, t.pc, t.run, t.reg 5)) = some (.tick .blocked, 0x200, .waitingForKey, 0) := by
  decide
theorem test_ldVxK_lowest :
    after 0xF50A { State.reset with keys := pressed [7, 0xB], run := .waitingForKey } (fun t => (t.reg 5, t.pc, t.run)) =
      some (7, 0x202, .running) := by decide
theorem test_timerTick_counts :
    called .timerTick { State.reset with dt := 3, st := 2 } (fun t => (t.dt, t.st, t.result, t.soundLatch)) =
      some (2, 1, .timer .soundStarted, true) := by decide
theorem test_timerTick_stops_and_rests :
    called .timerTick { State.reset with st := 1 } (fun t => (t.dt, t.st, t.result)) = some (0, 0, .timer .soundStopped) ∧
    called .timerTick State.reset (fun t => (t.dt, t.st, t.result)) = some (0, 0, .timer .noChange) := by decide
theorem test_timerTick_while_faulted :
    called .timerTick { State.reset with run := .faulted .stackOverflow, dt := 4 } (fun t => (t.dt, t.run)) =
      some (3, .faulted .stackOverflow) := by decide

/-! Load and reset (vectors L2, L3, L4, L5, L6). -/

theorem test_load_empty : called (.load []) State.reset (fun t => (t.result, t.loadAdmitted)) =
    some (.load .success, false) := by decide
theorem test_load_writes : called (.load [0x60, 0x0A]) State.reset (fun t => (t.mem, t.pc)) =
    some ([(0x200, 0x60), (0x201, 0x0A)], 0x200) := by decide
theorem test_load_not_admitted : called (.load []) { State.reset with loadAdmitted := false } (fun t => t.result) = none := by
  decide
theorem test_reset_call :
    called .reset { regs [(0, 1)] with mem := [(0, 1)], run := .faulted .stackUnderflow } (fun t => (t.mem.byte 0, t.run, t.reg 0)) =
      some (0xF0, .running, 0) := by decide
theorem test_memory_stays_canonical : (((Memory.write [] 0 1).write 0x300 7).write 0 0xF0) = [(0x300, 7)] := by decide

/-! A free value: the masked draw has no bit outside the mask (vector A30), whatever the draw is. -/

theorem test_rnd_zero_mask : ∃ t, exec (.rnd 3 0x00) State.reset = .next t ∧ t.reg 3 = 0 :=
  ⟨_, rfl, by simp [State.reg, State.finish, State.setReg, State.drawn]⟩

/-! Witnesses: for each obligation with hypotheses, states and operands that meet them, each clause at a boundary. -/

/-- The reset state with one instruction word placed at PC. -/
def placed (w : Nat) : State := State.reset.withFetchWord 16 w

/-- The reset state with this I. -/
def atIndex (a : Word) : State := { State.reset with i := a }

theorem test_witness_ResetCallRestoresConstructionState :
    ({ regs [(0, 1)] with calls := [.reset] } : State).calls.head? = some .reset := by decide

theorem test_witness_StepRunsDecodedInstruction :
    ({ placed 0x6005 with pc := 0x200 } : State).tickIsNext ∧ (placed 0x6005).heldFault = none ∧
    (placed 0x6005).pc.toNat + 2 ≤ 4096 ∧
    decodeWord (wordOfBytes ((placed 0x6005).mem.byte (placed 0x6005).pc.toNat)
      ((placed 0x6005).mem.byte ((placed 0x6005).pc.toNat + 1))) = .instr (.ldImm 0 5) := by decide

/-- At the last address that can be fetched from, with the tick listed. -/
theorem test_witness_StepRunsDecodedInstruction_boundary :
    ({ State.reset with pc := 0xFFE, mem := [(0xFFE, 0x60), (0xFFF, 5)], calls := [.tick] } : State).tickIsNext ∧
    (0xFFE#16).toNat + 2 ≤ 4096 ∧
    decodeWord (wordOfBytes (Memory.byte [(0xFFE, 0x60), (0xFFF, 5)] 0xFFE) (Memory.byte [(0xFFE, 0x60), (0xFFF, 5)] 0xFFF)) =
      .instr (.ldImm 0 5) := by decide

theorem test_witness_UnfetchableOrUnknownWordRaises :
    (State.reset.tickIsNext ∧ State.reset.heldFault = none ∧ State.reset.pc.toNat + 2 ≤ 4096 ∧
      decodeWord (wordOfBytes (State.reset.mem.byte State.reset.pc.toNat) (State.reset.mem.byte (State.reset.pc.toNat + 1))) =
        .unknown 0x0000) ∧
    (({ State.reset with pc := 0xFFF } : State).tickIsNext ∧ ({ State.reset with pc := 0xFFF } : State).heldFault = none ∧
      4096 < (0xFFF#16).toNat + 2) := by decide

theorem test_witness_HeldFaultIsReturnedByEveryTick :
    ({ State.reset with run := .faulted .stackOverflow, calls := [.tick, .tick] } : State).run = .faulted .stackOverflow ∧
    ({ State.reset with run := .faulted .stackOverflow, calls := [.tick, .tick] } : State).calls = List.replicate 2 .tick := by
  decide

theorem test_witness_OnlyResetLeavesFaulted :
    ∃ s t : State, s.run = .faulted .stackOverflow ∧ s.loadAdmitted = false ∧ s.calls.head? ≠ some .reset ∧
      step s = .next t :=
  ⟨{ State.reset with run := .faulted .stackOverflow, loadAdmitted := false, calls := [.timerTick] }, _,
    rfl, rfl, by decide, rfl⟩

/-- InstructionChangesOnlyItsFootprint and RegistersChangeOnlyWhereListed. -/
theorem test_witness_frames : ∃ t, exec (.addReg 0 1) (regs [(0, 0xFF), (1, 1)]) = .next t := ⟨_, rfl⟩

theorem test_witness_OnlyKeyWaitSuspends :
    ∃ t, exec (.ldVxK 5) State.reset = .next t ∧ t.run = .waitingForKey := ⟨_, rfl, rfl⟩

theorem test_witness_ListedInstructionsNeverRaise : (Instr.ldVxK 5).raisesNothing = true := by decide

theorem test_witness_ErrorsArePrecise :
    ∃ t, exec .ret State.reset = .next t ∧ t.run = .faulted .stackUnderflow := ⟨_, rfl, rfl⟩

theorem test_witness_DecodeOfEncodeIsTheInstruction : (Instr.drw 0xF 0xF 15).wellFormed = true := by decide

/-- DecodedWordReencodesToItself, DecodeFollowsTheOpcodeTable (first clause) and DecodedOperandsAreTheFields. -/
theorem test_witness_DecodedWordReencodesToItself : decodeWord 0xDFFF = .instr (.drw 0xF 0xF 15) := by decide

theorem test_witness_DecodeFollowsTheOpcodeTable_unknown : ∀ ins, decodeWord 0x0000 ≠ .instr ins := by
  intro ins h
  exact absurd ((show decodeWord 0x0000 = .unknown 0x0000 by decide).symm.trans h) (by intro h; cases h)

/-- CallPushesReturnAddress and ReturnAfterCallComesBack: room for one more, and none. -/
theorem test_witness_CallPushesReturnAddress :
    ({ State.reset with sp := 15 } : State).sp.val < 16 ∧ ({ State.reset with sp := 16 } : State).sp.val = 16 := by decide

theorem test_witness_ReturnPopsIntoPc :
    ({ State.reset with sp := 1 } : State).sp.val = (0 : Fin 16).val + 1 ∧
    ({ State.reset with sp := 16 } : State).sp.val = (15 : Fin 16).val + 1 ∧ State.reset.sp.val = 0 := by decide

/-- RegisterSkips and SkipNotEqualImmediate: both values of each condition. -/
theorem test_witness_RegisterSkips :
    ((regs [(3, 0x10)]).reg 3).toNat = (0x10#8).toNat ∧ ((regs [(3, 0x10)]).reg 3).toNat ≠ (0x11#8).toNat ∧
    ((regs [(3, 0x10)]).reg 3).toNat ≠ ((regs [(3, 0x10)]).reg 4).toNat ∧
    ((regs [(3, 0x10)]).reg 5).toNat = ((regs [(3, 0x10)]).reg 4).toNat := by decide

theorem test_witness_KeySkipsReadTheKeyVxNames :
    ((regs [(5, 15)]).reg 5).toNat = (15 : Fin 16).val ∧ ({ regs [(5, 15)] with keys := pressed [15] } : State).keys[15] = true ∧
    16 ≤ ((regs [(5, 16)]).reg 5).toNat := by decide

/-- AddAndSubtractWithFlag and ShiftsByOneIgnoreVy: both values of each flag's condition, VF as destination and not. -/
theorem test_witness_flags :
    (255 < ((regs [(0, 0xFF), (1, 1)]).reg 0).toNat + ((regs [(0, 0xFF), (1, 1)]).reg 1).toNat) ∧
    ¬(255 < ((regs [(0, 0xFE), (1, 1)]).reg 0).toNat + ((regs [(0, 0xFE), (1, 1)]).reg 1).toNat) ∧
    ((regs [(0, 5), (1, 5)]).reg 1).toNat ≤ ((regs [(0, 5), (1, 5)]).reg 0).toNat ∧
    ¬(((regs [(0, 4), (1, 5)]).reg 1).toNat ≤ ((regs [(0, 4), (1, 5)]).reg 0).toNat) ∧
    ((regs [(0, 5)]).reg 0).toNat % 2 = 1 ∧ 128 ≤ ((regs [(0, 0x80)]).reg 0).toNat ∧ (0 : Reg) ≠ 15 := by decide

theorem test_witness_RandomIsMaskedFreshByte : (0x0F#8).getLsbD 4 = false := by decide

/-- BcdStoresThreeDigits and BcdRoundTrip: the last address three bytes fit at. -/
theorem test_witness_BcdStoresThreeDigits :
    MemoryCanonical (atIndex 0xFFD) ∧ (atIndex 0xFFD).i.toNat + 3 ≤ 4096 := by decide

/-- StoreWritesRegistersFromI, LoadReadsRegistersFromI, LoadAfterStoreRestoresRegisters: all sixteen at the end of memory. -/
theorem test_witness_StoreWritesRegistersFromI :
    MemoryCanonical (atIndex 0xFF0) ∧ (atIndex 0xFF0).i.toNat + ((15 : Reg).val + 1) ≤ 4096 ∧
    MemoryCanonical (atIndex 0xFFF) ∧ (atIndex 0xFFF).i.toNat + ((0 : Reg).val + 1) ≤ 4096 := by decide

theorem test_witness_LoadReadsRegistersFromI_above : (2 : Reg).val < (3 : Reg).val ∧
    (atIndex 0x300).i.toNat + ((2 : Reg).val + 1) ≤ 4096 := by decide

theorem test_witness_TransfersOutOfRangeRaise :
    4096 < (atIndex 0xFFE).i.toNat + 3 ∧ 4096 < (atIndex 0xFFF).i.toNat + ((1 : Reg).val + 1) ∧
    0 < 5 ∧ 4096 < (atIndex 0xFFC).i.toNat + 5 := by decide

theorem test_witness_StoredWordIsFetchedNext :
    MemoryCanonical (atIndex 0x202) ∧ 1 ≤ (1 : Reg).val ∧ (atIndex 0x202).i.toNat + ((1 : Reg).val + 1) ≤ 4096 ∧
    (atIndex 0x202).i.toNat = (atIndex 0x202).pc.toNat + 2 := by decide

/-- DrawXorsTheSprite: an empty sprite past memory, and one at the end of memory; a covered and an uncovered pixel of glyph 0, the
covered one clear, then set. -/
theorem test_witness_DrawXorsTheSprite :
    (Instr.drw 0 1 0).wellFormed = true ∧ (0 = 0 ∨ (atIndex 0x1000).i.toNat + 0 ≤ 4096) ∧
    (Instr.drw 0 1 15).wellFormed = true ∧ (15 = 0 ∨ (atIndex 0xFF1).i.toNat + 15 ≤ 4096) := by decide

theorem covers_glyph_corner (s : State) (h : s.mem = [] ∧ s.i = 0) : SpriteCovers s 0 0 1 0 0 :=
  ⟨0, 0, by decide, by decide, by decide, by decide, by rw [h.1, h.2]; decide⟩

theorem not_covers_right_half (s : State) (px : Fin 64) (hpx : 4 ≤ px.val) (h : s.mem = [] ∧ s.i = 0) :
    ¬SpriteCovers s 0 0 1 px 0 := by
  rintro ⟨r, c, hr, hc, h1, _, hb⟩
  have hr0 : r = 0 := by omega
  subst hr0
  have hc4 : 4 ≤ c := by simp at h1; omega
  rw [h.1, h.2] at hb
  have hk : ∀ c : Fin 8, 4 ≤ c.val → (Memory.byte [] ((0#16).toNat + 0)).getLsbD (7 - c.val) = false := by decide
  exact absurd (hb.symm.trans (hk ⟨c, hc⟩ hc4)) (by decide)

theorem test_witness_DrawXorsTheSprite_pixels :
    (∃ px py, SpriteCovers State.reset (State.reset.reg 0) (State.reset.reg 1) 1 px py ∧ State.reset.fb.pixel px py = false) ∧
    (¬SpriteCovers State.reset (State.reset.reg 0) (State.reset.reg 1) 1 8 0) ∧
    (∃ px py, SpriteCovers { State.reset with fb := allSet } 0 0 1 px py ∧ allSet.pixel px py = true) ∧
    (∀ px py, SpriteCovers State.reset (State.reset.reg 0) (State.reset.reg 1) 1 px py → State.reset.fb.pixel px py = false) :=
  ⟨⟨0, 0, covers_glyph_corner _ ⟨rfl, rfl⟩, by decide⟩, not_covers_right_half _ 8 (by decide) ⟨rfl, rfl⟩,
    ⟨0, 0, covers_glyph_corner _ ⟨rfl, rfl⟩, by decide⟩, fun _ _ _ => Framebuffer.pixel_clear _ _⟩

theorem test_witness_SpriteNeverOverlapsItself :
    (15 : Nat) ≤ 15 ∧ pixelColumn 0xFF 7 = pixelColumn 0xFF 7 ∧ pixelRow 0xFF 14 = pixelRow 0xFF 14 ∧ 14 < 15 ∧ 7 < 8 ∧
    ((State.reset.litPixels 0 0 2).reverse).Perm (State.reset.litPixels 0 0 2) :=
  ⟨by decide, rfl, rfl, by decide, by decide, List.reverse_perm _⟩

/-- DrawingTwiceCancels and DrawingTwiceCancelsAsWritten: the second draw from a state that is the first one's result but for PC; a
sprite with a set bit; a covered pixel clear before; every covered pixel set before. -/
theorem test_witness_DrawingTwiceCancels :
    ∃ t, exec (.drw 0 1 1) State.reset = .next t ∧ Part.fb.same t t ∧ t.i = State.reset.i ∧ t.reg 0 = State.reset.reg 0 ∧
      t.reg 1 = State.reset.reg 1 ∧
      (∀ r, r < 1 → t.mem.byte (State.reset.i.toNat + r) = State.reset.mem.byte (State.reset.i.toNat + r)) ∧
      (∃ r, r < 1 ∧ State.reset.mem.byte (State.reset.i.toNat + r) ≠ 0) :=
  ⟨_, rfl, fun _ _ => rfl, rfl, rfl, rfl, fun _ _ => rfl, 0, by decide, by decide⟩

theorem test_witness_DrawingTwiceCancels_all_set :
    ∀ px py, SpriteCovers { State.reset with fb := allSet } 0 0 1 px py → allSet.pixel px py = true := by
  intro px py _
  simp [allSet, Framebuffer.pixel]

/-- The state that defeats R193's VF clause as written: every pixel set before the first draw of glyph row 0. -/
theorem test_second_draw_without_collision :
    execd (.drw 0 1 1) { State.reset with fb := allSet } (fun t => (t.reg 15, execd (.drw 0 1 1) t (fun u => u.reg 15))) =
      some (1, some 0) := by decide

/-- KeyWaitBlocksOrLoadsLowestKey: no key; key 15 alone; keys 2 and 15. -/
theorem test_witness_KeyWaitBlocksOrLoadsLowestKey :
    (∀ k : Fin 16, State.reset.keys[k] = false) ∧
    ((pressed [15])[15] = true ∧ ∀ j : Fin 16, j.val < 15 → (pressed [15])[j] = false) ∧
    ((pressed [2, 15])[2] = true ∧ ∀ j : Fin 16, j.val < 2 → (pressed [2, 15])[j] = false) := by decide

theorem test_witness_KeyWaitRetriesUntilAKey :
    (placed 0xF50A).heldFault = none ∧ (placed 0xF50A).calls = [] ∧ fetch (placed 0xF50A) = .ok 0xF50A ∧
    decodeWord 0xF50A = .instr (.ldVxK 5) ∧ (∀ k : Fin 16, (placed 0xF50A).keys[k] = false) ∧
    (∃ k : Fin 16, (pressed [7, 11])[k] = true) :=
  ⟨by decide, by decide, rfl, by decide, by decide, 7, by decide⟩

/-- TimerTickCountsDown and SoundEdgesFollowTheLatch: ST at 0, 1 and 2, the latch clear and set. -/
theorem test_witness_SoundEdgesFollowTheLatch :
    ({ State.reset with calls := [.timerTick] } : State).calls.head? = some .timerTick ∧
    (({ State.reset with st := 1, calls := [.timerTick] } : State).st.toNat = 1) ∧
    (({ State.reset with st := 0, soundLatch := true } : State).st.toNat = 0 ∧
      ({ State.reset with st := 0, soundLatch := true } : State).soundLatch = true) ∧
    (State.reset.st.toNat = 0 ∧ State.reset.soundLatch = false) ∧
    (2 ≤ ({ State.reset with st := 2 } : State).st.toNat ∧ ({ State.reset with st := 2 } : State).soundLatch = false) ∧
    (2 ≤ ({ State.reset with st := 2, soundLatch := true } : State).st.toNat ∧
      ({ State.reset with st := 2, soundLatch := true } : State).soundLatch = true) := by decide

theorem test_witness_RomLoadWritesFromRomBase :
    MemoryCanonical State.reset ∧ State.reset.loadAdmitted = true ∧
    ({ State.reset with calls := [.load []] } : State).calls = .load [] :: [] ∧
    (List.replicate 3584 (0x12 : Byte)).length ≤ 3584 ∧ 3584 < (List.replicate 3585 (0x12 : Byte)).length := by
  refine ⟨by decide, by decide, by decide, ?_, ?_⟩ <;> rw [List.length_replicate] <;> decide

theorem test_witness_LoadOutsideAdmissionIsRefused :
    (({ State.reset with loadAdmitted := false, calls := [.load [1]] } : State).calls = .load [1] :: [] ∧
      ({ State.reset with loadAdmitted := false, calls := [.load [1]] } : State).loadAdmitted = false) ∧
    (State.reset.tickIsNext ∧ State.reset.heldFault = none ∧ ∃ t, step State.reset = .next t) :=
  ⟨by decide, by decide, by decide, _, rfl⟩

theorem test_witness_KeypadWriteAndFramebufferRead :
    ({ State.reset with calls := [.keypadWrite (pressed [3])] } : State).calls = .keypadWrite (pressed [3]) :: [] ∧
    ({ State.reset with calls := [.framebufferRead] } : State).calls = .framebufferRead :: [] := by decide

theorem test_witness_SelfJumpNeverMoves :
    (placed 0x1200).heldFault = none ∧ (placed 0x1200).calls = [] ∧ fetch (placed 0x1200) = .ok 0x1200 ∧
    decodeWord 0x1200 = .instr (.jp 0x200) ∧ (0x200#12).toNat = (placed 0x1200).pc.toNat :=
  ⟨by decide, by decide, rfl, by decide, by decide⟩

/-- StepKeepsMemoryCanonical and StepKeepsControlFlowBounded: a store that changes memory; a bounded PC and stack. -/
theorem test_witness_StepKeepsMemoryCanonical : MemoryCanonical (placed 0xF033) ∧ ∃ t, step (placed 0xF033) = .next t :=
  ⟨by decide, _, rfl⟩

theorem test_witness_StepKeepsControlFlowBounded :
    ControlFlowBounded (placed 0x2300) ∧ ∃ t, step (placed 0x2300) = .next t :=
  ⟨⟨by decide, by decide⟩, _, rfl⟩

/-- StepKeepsWaitingAtTheKeyWait: a state that is waiting, at a key-wait. -/
theorem test_witness_StepKeepsWaitingAtTheKeyWait :
    ∃ s : State, s.run = .waitingForKey ∧ WaitsAtKeyWait s ∧ ∃ t, step s = .next t :=
  ⟨{ placed 0xF50A with run := .waitingForKey, loadAdmitted := false }, rfl,
    fun _ => ⟨rfl, 0xF50A, 5, rfl, by decide⟩, _, rfl⟩

/-- StepKeepsHeldFaultPrecise: a state that holds the fault its own `RET` raises. -/
theorem test_witness_StepKeepsHeldFaultPrecise :
    ∃ s : State, s.run = .faulted .stackUnderflow ∧ HeldFaultIsPrecise s ∧ ∃ t, step s = .next t :=
  ⟨{ placed 0x00EE with run := .faulted .stackUnderflow, loadAdmitted := false }, rfl,
    fun _ h => by cases h; exact ⟨rfl, rfl⟩, _, rfl⟩

theorem test_witness_StateIsWhatCanBeRead :
    MemoryCanonical (placed 0x1200) ∧ ∀ p : Part, p.same (placed 0x1200) (placed 0x1200) :=
  ⟨by decide, fun p => by cases p <;> first | rfl | exact fun _ => rfl | exact fun _ _ => rfl⟩

end Sys2Proof.Tests
end

/-! How an instruction that completes leaves the state: the frame of `State.finish`, and what a skip does, once. -/

namespace Sys2Proof

open Machine

theorem Part.same_refl (s : State) (p : Part) : p.same s s := by
  cases p with
  | mem | v | stack | keys => exact fun _ => rfl
  | fb => exact fun _ _ => rfl
  | _ => rfl

theorem UnchangedBut.refl (changed : List Part) (s : State) : UnchangedBut changed s s := fun p _ => p.same_refl s

/-- Completing writes PC, `run` and the result only (30_encoding.md R82, R83). -/
theorem Part.same_finish {s u : State} {p : Part} (hp : p ∉ [Part.pc, .run, .result])
    (next : Word) (r : RunState) (out : TickOutcome) : p.same s (u.finish next r out) ↔ p.same s u := by
  cases p with
  | pc | run | result => simp at hp
  | _ => exact Iff.rfl

/-- An instruction that has changed no more than `changed` and then completes in `Running` meets `Completes`. -/
theorem Completes.of_finish {s u : State} {changed : List Part} (h : UnchangedBut changed s u)
    (next : Word) (out : TickOutcome) : Completes s (u.finish next .running out) out changed where
  running := State.finish_run ..
  reported := State.finish_result ..
  frame p hp := by
    obtain ⟨notFinish, notChanged⟩ := not_or.1 (mt List.mem_append.2 hp)
    exact (Part.same_finish notFinish ..).2 (h p notChanged)

@[simp] theorem Machine.toNat_zext (nnn : Addr12) : (zext nnn).toNat = nnn.toNat :=
  BitVec.toNat_setWidth_of_le (by decide)

/-- An instruction that runs as a `skipIf` on a test of `condition` skips when `condition` holds. -/
theorem SkipsWhen.of_exec_eq_skipIf {condition : Prop} {ins : Instr} {s : State} {c : Bool}
    (hexec : exec ins s = skipIf c s) (hc : c = true ↔ condition) : SkipsWhen condition ins s := by
  refine ⟨_, hexec.trans (skipIf_eq c s), fun holds => ?_, fun fails => ?_, .of_finish (.refl _ s) ..⟩
  · have taken : c = true := hc.2 holds
    simp [taken, BitVec.toNat_add]
  · have notTaken : ¬c = true := fun h => fails (hc.1 h)
    simp [notTaken, BitVec.toNat_add]

end Sys2Proof

/-! The statements on control transfer (40_control_flow.md). -/

namespace Sys2Proof.Machine

/-! What each instruction runs. -/

theorem exec_jp (nnn : Addr12) (s : State) : exec (.jp nnn) s = goTo (zext nnn) s := rfl
theorem exec_seImm (x : Reg) (nn : Byte) (s : State) : exec (.seImm x nn) s = skipIf (decide (s.reg x = nn)) s := rfl
theorem exec_seReg (x y : Reg) (s : State) : exec (.seReg x y) s = skipIf (decide (s.reg x = s.reg y)) s := rfl
theorem exec_sneReg (x y : Reg) (s : State) : exec (.sneReg x y) s = skipIf (decide (s.reg x ≠ s.reg y)) s := rfl

/-- A byte test decides equality of the bytes' values as numbers. -/
theorem decide_byte_eq_iff {a b : Byte} : decide (a = b) = true ↔ a.toNat = b.toNat :=
  decide_eq_true_iff.trans BitVec.toNat_inj.symm

theorem decide_byte_ne_iff {a b : Byte} : decide (a ≠ b) = true ↔ a.toNat ≠ b.toNat :=
  decide_eq_true_iff.trans (not_congr BitVec.toNat_inj.symm)

/-- Settles O17: a jump is `goTo` the zero-extended operand, which completes with nothing else written (R102). -/
theorem jumpSetsPcAndNothingElse : Obligations.JumpSetsPcAndNothingElse := by
  intro nnn s
  exact ⟨_, (exec_jp nnn s).trans (goTo_eq (zext nnn) s), toNat_zext nnn, .of_finish (.refl _ s) ..⟩

/-- Settles O22: each of the three is a `skipIf` on a test of two bytes (R105, R107, R108). -/
theorem registerSkips : Obligations.RegisterSkips := by
  intro x y nn s
  exact ⟨.of_exec_eq_skipIf (exec_seImm x nn s) decide_byte_eq_iff,
    .of_exec_eq_skipIf (exec_seReg x y s) decide_byte_eq_iff,
    .of_exec_eq_skipIf (exec_sneReg x y s) decide_byte_ne_iff⟩

end Sys2Proof.Machine

/-! How an instruction that writes one register and goes on leaves the state. -/

namespace Sys2Proof

open Machine

/-- A register write changes the register file only. -/
theorem Part.same_setReg {s u : State} {p : Part} (hp : p ≠ .v) (x : Reg) (b : Byte) :
    p.same s (u.setReg x b) ↔ p.same s u := by
  cases p with
  | v => exact absurd rfl hp
  | _ => exact Iff.rfl

theorem UnchangedBut.setReg (s : State) (x : Reg) (b : Byte) : UnchangedBut [.v] s (s.setReg x b) :=
  fun p hp => (Part.same_setReg (mt List.mem_singleton.2 hp) x b).2 (p.same_refl s)

theorem RegsUnchangedBut.setReg (s : State) (x : Reg) (b : Byte) : RegsUnchangedBut [x] s (s.setReg x b) :=
  fun _ hr => State.setReg_reg_of_ne s b (mt List.mem_singleton.2 hr)

/-- An instruction that runs as `goOn` after writing `b` to `x` sets `x` to `b`'s value (30_encoding.md R82). -/
theorem SetsReg.of_exec_eq_goOn {ins : Instr} {s : State} {x : Reg} {b : Byte} {value : Nat}
    (hexec : exec ins s = goOn (s.setReg x b)) (hvalue : b.toNat = value) : SetsReg ins s x value := by
  refine ⟨_, hexec.trans (goOn_eq _), ?_, ?_, ?_, .of_finish (.setReg s x b) ..⟩
  · rw [State.finish_reg, State.setReg_reg_self, hvalue]
  · exact RegsUnchangedBut.setReg s x b
  · simp [BitVec.toNat_add]

end Sys2Proof

/-! The statements on register loads, arithmetic and logic (41_alu.md). -/

namespace Sys2Proof.Machine

/-! What each instruction that sets a register without a flag runs. -/

theorem exec_ldImm (x : Reg) (nn : Byte) (s : State) : exec (.ldImm x nn) s = goOn (s.setReg x nn) := rfl
theorem exec_addImm (x : Reg) (nn : Byte) (s : State) : exec (.addImm x nn) s = goOn (s.setReg x (s.reg x + nn)) := rfl
theorem exec_ldReg (x y : Reg) (s : State) : exec (.ldReg x y) s = goOn (s.setReg x (s.reg y)) := rfl
theorem exec_orReg (x y : Reg) (s : State) : exec (.orReg x y) s = goOn (s.setReg x (s.reg x ||| s.reg y)) := rfl
theorem exec_andReg (x y : Reg) (s : State) : exec (.andReg x y) s = goOn (s.setReg x (s.reg x &&& s.reg y)) := rfl
theorem exec_xorReg (x y : Reg) (s : State) : exec (.xorReg x y) s = goOn (s.setReg x (s.reg x ^^^ s.reg y)) := rfl

/-- Settles O25: each of the six is `goOn` after one register write, and the byte written has the stated value (R131 to R136). -/
theorem loadsAddImmediateAndLogic : Obligations.LoadsAddImmediateAndLogic := by
  intro x y nn s
  exact ⟨.of_exec_eq_goOn (exec_ldImm x nn s) rfl,
    .of_exec_eq_goOn (exec_addImm x nn s) (BitVec.toNat_add ..),
    .of_exec_eq_goOn (exec_ldReg x y s) rfl,
    .of_exec_eq_goOn (exec_orReg x y s) (BitVec.toNat_or ..),
    .of_exec_eq_goOn (exec_andReg x y s) (BitVec.toNat_and ..),
    .of_exec_eq_goOn (exec_xorReg x y s) (BitVec.toNat_xor ..)⟩

end Sys2Proof.Machine

/-! How an instruction that writes the index register and goes on leaves the state. -/

namespace Sys2Proof

open Machine

/-- Writing the index register changes no other part. -/
theorem Part.same_setI {s u : State} {p : Part} (hp : p ≠ .i) (w : Word) : p.same s (u.setI w) ↔ p.same s u := by
  cases p with
  | i => exact absurd rfl hp
  | _ => exact Iff.rfl

theorem UnchangedBut.setI (s : State) (w : Word) : UnchangedBut [.i] s (s.setI w) :=
  fun p hp => (Part.same_setI (mt List.mem_singleton.2 hp) w).2 (p.same_refl s)

/-- An instruction that runs as `goOn` after writing `w` to I sets I to `w`'s value (30_encoding.md R82). -/
theorem SetsIndex.of_exec_eq_goOn {ins : Instr} {s : State} {w : Word} {value : Nat}
    (hexec : exec ins s = goOn (s.setI w)) (hvalue : w.toNat = value) : SetsIndex ins s value := by
  refine ⟨_, hexec.trans (goOn_eq _), ?_, ?_, .of_finish (.setI s w) ..⟩
  · rw [State.finish_i, State.setI_i, hvalue]
  · simp [BitVec.toNat_add]

end Sys2Proof

/-! The statements on the index register (42_index_memory.md). -/

namespace Sys2Proof.Machine

theorem exec_ldI (nnn : Addr12) (s : State) : exec (.ldI nnn) s = goOn (s.setI (zext nnn)) := rfl

/-- Settles O29: `goOn` after I is set to the zero-extended operand, which has the operand's value (R171). -/
theorem loadIndexImmediate : Obligations.LoadIndexImmediate := by
  intro nnn s
  exact .of_exec_eq_goOn (exec_ldI nnn s) (toNat_zext nnn)

end Sys2Proof.Machine

/-! How an instruction that replaces the framebuffer leaves the state. -/

namespace Sys2Proof

open Machine

/-- Replacing the framebuffer changes no other part. -/
theorem Part.same_setFb {s u : State} {p : Part} (hp : p ≠ .fb) (f : Framebuffer) :
    p.same s (u.setFb f) ↔ p.same s u := by
  cases p with
  | fb => exact absurd rfl hp
  | _ => exact Iff.rfl

theorem UnchangedBut.setFb (s : State) (f : Framebuffer) : UnchangedBut [.fb] s (s.setFb f) :=
  fun p hp => (Part.same_setFb (mt List.mem_singleton.2 hp) f).2 (p.same_refl s)

end Sys2Proof

/-! The statements on the display (43_display.md). -/

namespace Sys2Proof.Machine

theorem exec_cls (s : State) : exec .cls s = goOnRedraw (s.setFb Framebuffer.clear) := rfl

/-- Settles O38: `goOnRedraw` after the framebuffer is replaced by the clear one, each of whose pixels is false (R190). -/
theorem clearScreenClearsEveryPixel : Obligations.ClearScreenClearsEveryPixel := by
  intro s
  refine ⟨_, (exec_cls s).trans (goOnRedraw_eq _), fun px py => ?_, ?_, .of_finish (.setFb s _) ..⟩
  · rw [State.finish_fb, State.setFb_fb, Framebuffer.pixel_clear]
  · simp [BitVec.toNat_add]

end Sys2Proof.Machine

/-! How an instruction that writes a timer and goes on leaves the state. -/

namespace Sys2Proof

open Machine

/-- Writing the delay timer changes no other part. -/
theorem Part.same_setDt {s u : State} {p : Part} (hp : p ≠ .dt) (b : Byte) : p.same s (u.setDt b) ↔ p.same s u := by
  cases p with
  | dt => exact absurd rfl hp
  | _ => exact Iff.rfl

theorem UnchangedBut.setDt (s : State) (b : Byte) : UnchangedBut [.dt] s (s.setDt b) :=
  fun p hp => (Part.same_setDt (mt List.mem_singleton.2 hp) b).2 (p.same_refl s)

/-- Writing the sound timer changes no other part: the sound latch is kept (44_timers_keys.md R213). -/
theorem Part.same_setSt {s u : State} {p : Part} (hp : p ≠ .st) (b : Byte) : p.same s (u.setSt b) ↔ p.same s u := by
  cases p with
  | st => exact absurd rfl hp
  | _ => exact Iff.rfl

theorem UnchangedBut.setSt (s : State) (b : Byte) : UnchangedBut [.st] s (s.setSt b) :=
  fun p hp => (Part.same_setSt (mt List.mem_singleton.2 hp) b).2 (p.same_refl s)

/-- The sound output follows the sound timer alone (60_exceptions.md R245). -/
theorem Machine.State.soundOn_iff (s : State) : s.soundOn = true ↔ s.st.toNat ≠ 0 :=
  bne_iff_ne.trans (not_congr BitVec.toNat_inj.symm)

end Sys2Proof

/-! The statements on the timers (44_timers_keys.md). -/

namespace Sys2Proof.Machine

theorem exec_ldVxDt (x : Reg) (s : State) : exec (.ldVxDt x) s = goOn (s.setReg x s.dt) := rfl
theorem exec_ldDtVx (x : Reg) (s : State) : exec (.ldDtVx x) s = goOn (s.setDt (s.reg x)) := rfl
theorem exec_ldStVx (x : Reg) (s : State) : exec (.ldStVx x) s = goOn (s.setSt (s.reg x)) := rfl

/-- Settles O43: each of the three is `goOn` after one write, of VX, DT or ST (R211 to R213); the sound output then follows the
byte written to ST. -/
theorem timerRegisterTransfers : Obligations.TimerRegisterTransfers := by
  intro x s
  refine ⟨.of_exec_eq_goOn (exec_ldVxDt x s) rfl,
    ⟨_, (exec_ldDtVx x s).trans (goOn_eq _), ?dt, ?dtPc, .of_finish (.setDt s _) ..⟩,
    ⟨_, (exec_ldStVx x s).trans (goOn_eq _), ?st, ?sound, ?stPc, .of_finish (.setSt s _) ..⟩⟩
  case dt => rw [State.finish_dt, State.setDt_dt]
  case st => rw [State.finish_st, State.setSt_st]
  case sound => rw [State.soundOn_iff, State.finish_st, State.setSt_st]
  case dtPc | stPc => simp [BitVec.toNat_add]

end Sys2Proof.Machine

/-! How the entry points reset and ROM load leave the state. -/

namespace Sys2Proof

open Machine

/-- Taking a call off the list changes no other part. -/
theorem Part.same_withCalls {s u : State} {p : Part} (hp : p ≠ .calls) (cs : List HostCall) :
    p.same s (u.withCalls cs) ↔ p.same s u := by
  cases p with
  | calls => exact absurd rfl hp
  | _ => exact Iff.rfl

/-- Returning a result changes no other part. -/
theorem Part.same_answer {s u : State} {p : Part} (hp : p ≠ .result) (r : CallResult) :
    p.same s (u.answer r) ↔ p.same s u := by
  cases p with
  | result => exact absurd rfl hp
  | _ => exact Iff.rfl

/-- A state with this memory and ROM load no longer admitted. -/
def Machine.State.withLoaded (s : State) (m : Memory) : State := { s with mem := m, loadAdmitted := false }

/-- Loading changes memory and the admission only. -/
theorem Part.same_withLoaded {s u : State} {p : Part} (hp : p ∉ [Part.mem, .loadAdmitted]) (m : Memory) :
    p.same s (u.withLoaded m) ↔ p.same s u := by
  cases p with
  | mem | loadAdmitted => simp at hp
  | _ => exact Iff.rfl

/-- A call that answers `r` and does nothing else changes the list of calls and the result. -/
theorem UnchangedBut.answer_withCalls (s : State) (cs : List HostCall) (r : CallResult) :
    UnchangedBut [.calls, .result] s ((s.withCalls cs).answer r) := by
  intro p hp
  obtain ⟨notCalls, notResult⟩ : p ≠ .calls ∧ p ≠ .result := by simpa using hp
  exact (Part.same_answer notResult r).2 ((Part.same_withCalls notCalls cs).2 (p.same_refl s))

/-- A call that loads changes memory and the admission beside. -/
theorem UnchangedBut.answer_withLoaded_withCalls (s : State) (cs : List HostCall) (m : Memory) (r : CallResult) :
    UnchangedBut [.mem, .loadAdmitted, .calls, .result] s (((s.withCalls cs).withLoaded m).answer r) := by
  intro p hp
  obtain ⟨notMem, notAdmitted, notCalls, notResult⟩ :
    p ≠ .mem ∧ p ≠ .loadAdmitted ∧ p ≠ .calls ∧ p ≠ .result := by simpa using hp
  have notLoaded : p ∉ [Part.mem, .loadAdmitted] := by simp [notMem, notAdmitted]
  exact (Part.same_answer notResult r).2
    ((Part.same_withLoaded notLoaded m).2 ((Part.same_withCalls notCalls cs).2 (p.same_refl s)))

end Sys2Proof

/-! The statements on reset and ROM load (70_reset_and_hazards.md). -/

namespace Sys2Proof.Machine

theorem resetCall_eq (s : State) :
    resetCall s = .next { State.reset with keys := s.keys, calls := s.calls, draws := s.draws } := rfl

theorem loadRom_of_fits {rom : List Byte} {s : State} (hadm : s.loadAdmitted = true) (hlen : rom.length ≤ 3584) :
    loadRom rom s = .next ((s.withLoaded (s.mem.writeBlock 0x200 rom)).answer (.load .success)) := by
  have fits : ¬Config.romMax < rom.length := Nat.not_lt.2 hlen
  rw [loadRom, if_pos hadm, if_neg fits]
  rfl

theorem loadRom_of_tooLarge {rom : List Byte} {s : State} (hadm : s.loadAdmitted = true) (hlen : 3584 < rom.length) :
    loadRom rom s = .next (s.answer (.load .romTooLarge)) := by
  rw [loadRom, if_pos hadm, if_pos hlen]

/-- A block written inside memory is read back byte by byte. -/
theorem Memory.byte_writeBlock_inside {bs : List Byte} {m : Memory} {a k : Nat} (hm : m.wf = true)
    (ha : a + bs.length ≤ 4096) (hk : k < bs.length) : some ((m.writeBlock a bs).byte (a + k)) = bs[k]? := by
  rw [Memory.byte_writeBlock hm ha, if_pos ⟨Nat.le_add_right a k, Nat.add_lt_add_left hk a⟩, Nat.add_sub_cancel_left]
  simp [hk]

/-- It changes no byte outside. -/
theorem Memory.byte_writeBlock_outside {bs : List Byte} {m : Memory} {a c : Nat} (hm : m.wf = true)
    (ha : a + bs.length ≤ 4096) (hc : c < a ∨ a + bs.length ≤ c) : (m.writeBlock a bs).byte c = m.byte c := by
  rw [Memory.byte_writeBlock hm ha, if_neg (by omega)]

/-- Settles O2: the step runs `resetCall`, which keeps only the keypad flags, the coming calls and the draw counter (R271). -/
theorem resetCallRestoresConstructionState : Obligations.ResetCallRestoresConstructionState := by
  intro s hcall
  obtain ⟨rest, hcalls⟩ := List.head?_eq_some_iff.1 hcall
  refine ⟨_, (step_of_cons hcalls).trans (resetCall_eq (s.withCalls rest)), fun p hp => ?_⟩
  cases p with
  | keys | calls | result | draws => simp at hp
  | mem | v | stack => exact fun _ => rfl
  | fb => exact fun _ _ => rfl
  | _ => rfl

/-- Settles O48: a ROM of at most 3584 bytes ends inside memory, so the block written from 0x200 reads back and nothing else moves;
a longer one only answers `RomTooLarge` (R274, R275). -/
theorem romLoadWritesFromRomBase : Obligations.RomLoadWritesFromRomBase := by
  intro rom rest s hwf hcalls hadm
  have hstep : step s = loadRom rom (s.withCalls rest) := step_of_cons hcalls
  refine ⟨fun hlen => ?fits, fun hlen => ?tooLarge⟩
  case fits =>
    have inside : 0x200 + rom.length ≤ 4096 := by omega
    exact ⟨_, hstep.trans (loadRom_of_fits hadm hlen), fun _ hk => Memory.byte_writeBlock_inside hwf inside hk,
      fun _ hb => Memory.byte_writeBlock_outside hwf inside hb, rfl, rfl, rfl,
      .answer_withLoaded_withCalls s rest _ _⟩
  case tooLarge =>
    exact ⟨_, hstep.trans (loadRom_of_tooLarge hadm hlen), rfl, rfl, .answer_withCalls s rest _⟩

end Sys2Proof.Machine

/-! What the writes of an instruction may touch, update by update: the frame of each state operation. -/

namespace Sys2Proof

open Machine

/-- A memory write changes memory only. -/
theorem Part.same_memWrite {s u : State} {p : Part} (hp : p ≠ .mem) (a : Nat) (b : Byte) :
    p.same s (u.memWrite a b) ↔ p.same s u := by
  cases p with
  | mem => exact absurd rfl hp
  | _ => exact Iff.rfl

/-- A random draw changes the draw counter only. -/
theorem Part.same_drawn {s u : State} {p : Part} (hp : p ≠ .draws) : p.same s u.drawn ↔ p.same s u := by
  cases p with
  | draws => exact absurd rfl hp
  | _ => exact Iff.rfl

/-- A push changes the stack and SP only. -/
theorem Part.same_push {s u : State} {p : Part} (notStack : p ≠ .stack) (notSp : p ≠ .sp) (w : Word)
    (room : u.sp.val < 16) : p.same s (u.push w room) ↔ p.same s u := by
  cases p with
  | stack => exact absurd rfl notStack
  | sp => exact absurd rfl notSp
  | _ => exact Iff.rfl

/-- A pop changes SP only (the entry popped is left in the stack: D31). -/
theorem Part.same_drop {s u : State} {p : Part} (hp : p ≠ .sp) (held : 0 < u.sp.val) :
    p.same s (u.drop held) ↔ p.same s u := by
  cases p with
  | sp => exact absurd rfl hp
  | _ => exact Iff.rfl

/-- Error entry changes `run` and the result only (60_exceptions.md R232). -/
theorem Part.same_faultWith {s u : State} {p : Part} (hp : p ∉ [Part.run, .result]) (e : VmError) :
    p.same s (u.faultWith e) ↔ p.same s u := by
  cases p with
  | run | result => simp at hp
  | _ => exact Iff.rfl

theorem UnchangedBut.faultWith (s : State) (e : VmError) : UnchangedBut [.run, .result] s (s.faultWith e) :=
  fun p hp => (Part.same_faultWith hp e).2 (p.same_refl s)

/-- A larger set of changed parts claims less. -/
theorem UnchangedBut.mono {small large : List Part} {s t : State} (hsub : small ⊆ large) (h : UnchangedBut small s t) :
    UnchangedBut large s t := fun p hp => h p fun hmem => hp (hsub hmem)

/-- What the writes of an instruction have done to a state `s` before it completes as `u`: nothing outside `parts` and
`regs`; canonical memory is kept, and a stack entry that is new is the return address of a `CALL`. -/
structure Writes (parts : List Part) (regs : List Reg) (s u : State) : Prop where
  frame : UnchangedBut parts s u
  regsFrame : RegsUnchangedBut regs s u
  memory : MemoryCanonical s → MemoryCanonical u
  stack : ∀ j : Fin 16, u.stack[j] = s.stack[j] ∨ u.stack[j] = s.pc + 2

namespace Writes

variable {parts : List Part} {regs : List Reg} {s u : State}

theorem refl (parts : List Part) (regs : List Reg) (s : State) : Writes parts regs s s :=
  ⟨.refl parts s, fun _ _ => rfl, id, fun _ => .inl rfl⟩

theorem setReg {x : Reg} (hv : .v ∈ parts) (hx : x ∈ regs) (h : Writes parts regs s u) (b : Byte) :
    Writes parts regs s (u.setReg x b) where
  frame p hp := (Part.same_setReg (ne_of_mem_of_not_mem hv hp).symm x b).2 (h.frame p hp)
  regsFrame r hr := (State.setReg_reg_of_ne u b (ne_of_mem_of_not_mem hx hr).symm).trans (h.regsFrame r hr)
  memory := h.memory
  stack := h.stack

theorem setRegThenFlag {x : Reg} (hv : .v ∈ parts) (hx : x ∈ regs) (hf : vf ∈ regs) (h : Writes parts regs s u)
    (b : Byte) (flag : Bool) : Writes parts regs s (u.setRegThenFlag x b flag) :=
  (h.setReg hv hx b).setReg hv hf _

theorem setI (hi : .i ∈ parts) (h : Writes parts regs s u) (w : Word) : Writes parts regs s (u.setI w) where
  frame p hp := (Part.same_setI (ne_of_mem_of_not_mem hi hp).symm w).2 (h.frame p hp)
  regsFrame := h.regsFrame
  memory := h.memory
  stack := h.stack

theorem setDt (hd : .dt ∈ parts) (h : Writes parts regs s u) (b : Byte) : Writes parts regs s (u.setDt b) where
  frame p hp := (Part.same_setDt (ne_of_mem_of_not_mem hd hp).symm b).2 (h.frame p hp)
  regsFrame := h.regsFrame
  memory := h.memory
  stack := h.stack

theorem setSt (hd : .st ∈ parts) (h : Writes parts regs s u) (b : Byte) : Writes parts regs s (u.setSt b) where
  frame p hp := (Part.same_setSt (ne_of_mem_of_not_mem hd hp).symm b).2 (h.frame p hp)
  regsFrame := h.regsFrame
  memory := h.memory
  stack := h.stack

theorem setFb (hf : .fb ∈ parts) (h : Writes parts regs s u) (f : Framebuffer) : Writes parts regs s (u.setFb f) where
  frame p hp := (Part.same_setFb (ne_of_mem_of_not_mem hf hp).symm f).2 (h.frame p hp)
  regsFrame := h.regsFrame
  memory := h.memory
  stack := h.stack

theorem drawn (hd : .draws ∈ parts) (h : Writes parts regs s u) : Writes parts regs s u.drawn where
  frame p hp := (Part.same_drawn (ne_of_mem_of_not_mem hd hp).symm).2 (h.frame p hp)
  regsFrame := h.regsFrame
  memory := h.memory
  stack := h.stack

theorem memWrite (hm : .mem ∈ parts) (h : Writes parts regs s u) {a : Nat} (ha : a < 4096) (b : Byte) :
    Writes parts regs s (u.memWrite a b) where
  frame p hp := (Part.same_memWrite (ne_of_mem_of_not_mem hm hp).symm a b).2 (h.frame p hp)
  regsFrame := h.regsFrame
  memory hwf := Memory.write_wf b (h.memory hwf) ha
  stack := h.stack

theorem drop (hsp : .sp ∈ parts) (h : Writes parts regs s u) (held : 0 < u.sp.val) :
    Writes parts regs s (u.drop held) where
  frame p hp := (Part.same_drop (ne_of_mem_of_not_mem hsp hp).symm held).2 (h.frame p hp)
  regsFrame := h.regsFrame
  memory := h.memory
  stack := h.stack

end Writes

/-- Entry `j` after a push is the word pushed where `j` was SP, and as before elsewhere. -/
theorem Machine.State.push_stack_getElem (s : State) (w : Word) (room : s.sp.val < 16) (j : Fin 16) :
    (s.push w room).stack[j] = if j.val = s.sp.val then w else s.stack[j] := by
  simp only [State.push_stack, Fin.getElem_fin, Vector.getElem_set, eq_comm]

namespace Writes

variable {parts : List Part} {regs : List Reg} {s u : State}

/-- The one push of the machine, the return address of a `CALL` (40_control_flow.md R103). -/
theorem push (hst : .stack ∈ parts) (hsp : .sp ∈ parts) (s : State) (room : s.sp.val < 16) :
    Writes parts regs s (s.push (s.pc + 2) room) where
  frame p hp := (Part.same_push (ne_of_mem_of_not_mem hst hp).symm (ne_of_mem_of_not_mem hsp hp).symm _ room).2 (p.same_refl s)
  regsFrame _ _ := rfl
  memory := id
  stack j := by
    rw [State.push_stack_getElem]
    by_cases h : j.val = s.sp.val <;> simp [h]

/-- A block store writes memory only. -/
theorem foldl_memWrite (hm : .mem ∈ parts) (a : Reg → Nat) (g : Reg → Byte) {l : List Reg} (hl : ∀ k ∈ l, a k < 4096)
    (h : Writes parts regs s u) : Writes parts regs s (l.foldl (fun t k => t.memWrite (a k) (g k)) u) := by
  induction l generalizing u with
  | nil => exact h
  | cons k l ih => exact ih (fun j hj => hl j (List.mem_cons_of_mem k hj)) (h.memWrite hm (hl k List.mem_cons_self) _)

/-- A block load writes the listed registers only. -/
theorem foldl_setReg (hv : .v ∈ parts) (g : Reg → Byte) {l : List Reg} (hl : ∀ k ∈ l, k ∈ regs)
    (h : Writes parts regs s u) : Writes parts regs s (l.foldl (fun t k => t.setReg k (g k)) u) := by
  induction l generalizing u with
  | nil => exact h
  | cons k l ih => exact ih (fun j hj => hl j (List.mem_cons_of_mem k hj)) (h.setReg hv (hl k List.mem_cons_self) _)

end Writes

end Sys2Proof

/-! The states the block transfers and the sprite draw complete from, named. -/

namespace Sys2Proof

open Machine

/-- The three decimal digits of `VX` stored from I (42_index_memory.md R174). -/
def Machine.State.storedDigits (s : State) (x : Reg) : State :=
  ((s.memWrite (s.indexed 0) (hundreds (s.reg x))).memWrite (s.indexed 1) (tens (s.reg x))).memWrite (s.indexed 2)
    (ones (s.reg x))

/-- V0 to VX stored from I (42_index_memory.md R175). -/
def Machine.State.storedRegs (s : State) (x : Reg) : State :=
  (regsUpTo x).foldl (fun t k => t.memWrite (s.indexed k.val) (s.reg k)) s

/-- V0 to VX loaded from I (42_index_memory.md R176). -/
def Machine.State.loadedRegs (s : State) (x : Reg) : State :=
  (regsUpTo x).foldl (fun t k => t.setReg k (s.mem.byte (s.indexed k.val))) s

/-- The lit pixels toggled, and VF set to the collision (43_display.md R191). -/
def Machine.State.drewSprite (s : State) (x y : Reg) (n : Nat) : State :=
  (s.setFb (togglePixels s.fb (s.litPixels (s.reg x) (s.reg y) n))).setReg vf
    (flagByte (collides s.fb (s.litPixels (s.reg x) (s.reg y) n)))

namespace Writes

variable {parts : List Part} {regs : List Reg} {s : State}

theorem storedDigits (hm : .mem ∈ parts) (inside : s.i.toNat + 3 ≤ 4096) (x : Reg) :
    Writes parts regs s (s.storedDigits x) := by
  have fits : ∀ k, k < 3 → s.indexed k < 4096 := fun k hk => by rw [State.indexed_eq]; omega
  exact (((Writes.refl ..).memWrite hm (fits 0 (by omega)) _).memWrite hm (fits 1 (by omega)) _).memWrite hm
    (fits 2 (by omega)) _

theorem storedRegs {x : Reg} (hm : .mem ∈ parts) (inside : s.i.toNat + (x.val + 1) ≤ 4096) :
    Writes parts regs s (s.storedRegs x) := by
  refine (Writes.refl ..).foldl_memWrite hm _ _ fun k hk => ?_
  have upTo : k.val ≤ x.val := mem_regsUpTo.1 hk
  rw [State.indexed_eq]; omega

theorem loadedRegs {x : Reg} (hv : .v ∈ parts) (hx : ∀ k ∈ regsUpTo x, k ∈ regs) :
    Writes parts regs s (s.loadedRegs x) := (Writes.refl ..).foldl_setReg hv _ hx

theorem drewSprite (hfb : .fb ∈ parts) (hv : .v ∈ parts) (hf : vf ∈ regs) (x y : Reg) (n : Nat) :
    Writes parts regs s (s.drewSprite x y n) := ((Writes.refl ..).setFb hfb _).setReg hv hf _

end Writes

namespace Machine

theorem exec_ldB (x : Reg) (s : State) :
    exec (.ldB x) s = withRange .bcd s.i.toNat 3 s (goOn (s.storedDigits x)) := rfl

theorem exec_ldMemVx (x : Reg) (s : State) :
    exec (.ldMemVx x) s = withRange .store s.i.toNat (x.val + 1) s (goOn (s.storedRegs x)) := rfl

theorem exec_ldVxMem (x : Reg) (s : State) :
    exec (.ldVxMem x) s = withRange .load s.i.toNat (x.val + 1) s (goOn (s.loadedRegs x)) := rfl

theorem exec_drw (x y : Reg) (n : Nat) (s : State) :
    exec (.drw x y n) s = withRange .sprite s.i.toNat n s (goOnRedraw (s.drewSprite x y n)) := rfl

end Machine

end Sys2Proof

/-! What an instruction can end in, once: it raises its error, blocks, or completes after its writes. Every claim about all
instructions is read off `exec_ends`. -/

namespace Sys2Proof

open Machine

/-- The error an instruction raises in a state, if any: the instructions outside the list of 60_exceptions.md R231. -/
def Instr.error (s : State) : Instr → Option VmError
  | .ret => if s.sp.val = 0 then some .stackUnderflow else none
  | .call _ => if s.sp.val = 16 then some .stackOverflow else none
  | .skp x | .sknp x => if 16 ≤ (s.reg x).toNat then some (.indexOutOfRange .key (s.reg x).toNat) else none
  | .drw _ _ n => checkRange .sprite s.i.toNat n
  | .ldB _ => checkRange .bcd s.i.toNat 3
  | .ldMemVx x => checkRange .store s.i.toNat (x.val + 1)
  | .ldVxMem x => checkRange .load s.i.toNat (x.val + 1)
  | _ => none

/-- Where an instruction that completes in `s` can go on (30_encoding.md R82, 40_control_flow.md R101 to R104). -/
inductive NextPc (s : State) : Word → Prop
  | goOn : NextPc s (s.pc + 2)
  | skip : NextPc s (s.pc + 4)
  | jump (nnn : Addr12) : NextPc s (zext nnn)
  | jumpWithOffset (nnn : Addr12) : NextPc s (zext nnn + (s.reg 0).setWidth 16)
  | back (j : Fin 16) : NextPc s s.stack[j]

/-- How `ins` can end in state `s`. -/
inductive Ends (ins : Instr) (s : State) : Result → Prop
  | raised {e : VmError} (error : ins.error s = some e) : Ends ins s (.next (s.faultWith e))
  | blocked {x : Reg} (noError : ins.error s = none) (isKeyWait : ins = .ldVxK x) (noKey : ∀ k : Fin 16, s.keys[k] = false) :
    Ends ins s (.next (s.finish s.pc .waitingForKey .blocked))
  | completed {u : State} {next : Word} {out : TickOutcome} (noError : ins.error s = none)
    (writes : Writes ins.footprint ins.writtenRegs s u) (target : NextPc s next) :
    Ends ins s (.next (u.finish next .running out))

theorem Instr.pc_not_mem_footprint (ins : Instr) : Part.pc ∉ ins.footprint := by
  cases ins <;> simp [Instr.footprint]

theorem Instr.loadAdmitted_not_mem_footprint (ins : Instr) : Part.loadAdmitted ∉ ins.footprint := by
  cases ins <;> simp [Instr.footprint]

namespace Ends

variable {ins : Instr} {s u : State}

theorem of_goTo {next : Word} (noError : ins.error s = none) (target : NextPc s next)
    (writes : Writes ins.footprint ins.writtenRegs s u) : Ends ins s (goTo next u) :=
  .completed noError writes target

theorem of_goOn (noError : ins.error s = none) (writes : Writes ins.footprint ins.writtenRegs s u) :
    Ends ins s (Machine.goOn u) := by
  have samePc : u.pc = s.pc := writes.frame .pc ins.pc_not_mem_footprint
  rw [goOn_eq, samePc]
  exact .completed noError writes .goOn

theorem of_goOnRedraw (noError : ins.error s = none) (writes : Writes ins.footprint ins.writtenRegs s u) :
    Ends ins s (goOnRedraw u) := by
  have samePc : u.pc = s.pc := writes.frame .pc ins.pc_not_mem_footprint
  rw [goOnRedraw_eq, samePc]
  exact .completed noError writes .goOn

theorem of_skipIf (noError : ins.error s = none) (c : Bool) : Ends ins s (skipIf c s) := by
  cases c with
  | false => exact .of_goTo noError .goOn (.refl ..)
  | true => exact .of_goTo noError .skip (.refl ..)

/-- Behind a range check: the check's error, or what the body ends in with the range inside memory. -/
theorem of_withRange {kind : AccessKind} {n : Nat} {body : Result} (herror : ins.error s = checkRange kind s.i.toNat n)
    (hbody : ins.error s = none → (n = 0 ∨ s.i.toNat + n ≤ 4096) → Ends ins s body) :
    Ends ins s (withRange kind s.i.toNat n s body) := by
  rcases withRange_cases kind s.i.toNat n s body with ⟨inside, heq⟩ | ⟨outside, heq⟩
  · rw [heq]; exact hbody (herror.trans (checkRange_eq_none.2 inside)) inside
  · rw [heq]; exact .raised (herror.trans (checkRange_eq_some outside))

/-- A key skip: an error where the register holds no key number, else a skip on that key's flag. -/
theorem of_withKey {x : Reg} {body : Fin 16 → Result}
    (herror : ins.error s =
      if 16 ≤ (s.reg x).toNat then some (.indexOutOfRange .key (s.reg x).toNat) else none)
    (hbody : ins.error s = none → ∀ k, Ends ins s (body k)) : Ends ins s (withKey (s.reg x) s body) := by
  by_cases h : 16 ≤ (s.reg x).toNat
  · rw [withKey_of_ge h]; exact .raised (herror.trans (if_pos h))
  · rw [withKey_of_lt (by omega)]; exact hbody (herror.trans (if_neg h)) _

end Ends

namespace Machine

theorem exec_ret_of_held {s : State} (held : 0 < s.sp.val) : exec .ret s = goTo (s.top held) (s.drop held) := dif_pos held

theorem exec_call_of_room {s : State} (room : s.sp.val < 16) (nnn : Addr12) :
    exec (.call nnn) s = goTo (zext nnn) (s.push (s.pc + 2) room) := dif_pos room

theorem ret_ends (s : State) : Ends .ret s (exec .ret s) := by
  by_cases held : 0 < s.sp.val
  · rw [exec_ret_of_held held]
    exact .of_goTo (if_neg (by omega)) (.back ⟨s.sp.val - 1, by omega⟩) ((Writes.refl ..).drop List.mem_cons_self held)
  · rw [show exec .ret s = raise .stackUnderflow s from dif_neg held]
    exact .raised (if_pos (by omega))

theorem call_ends (nnn : Addr12) (s : State) : Ends (.call nnn) s (exec (.call nnn) s) := by
  by_cases room : s.sp.val < 16
  · rw [exec_call_of_room room]
    exact .of_goTo (if_neg (by omega)) (.jump nnn) (.push (by simp [Instr.footprint]) (by simp [Instr.footprint]) s room)
  · rw [show exec (.call nnn) s = raise .stackOverflow s from dif_neg room]
    exact .raised (if_pos (by omega))

theorem ldVxK_of_noKey {x : Reg} {s : State} (h : ∀ k : Fin 16, s.keys[k] = false) :
    exec (.ldVxK x) s = .next (s.finish s.pc .waitingForKey .blocked) := by
  simp only [exec, execLdVxK, keyPick_eq_none.2 h]

theorem ldVxK_of_key {x : Reg} {s : State} {k : Fin 16} (h : keyPick (pressedKeys s.keys) = some k) :
    exec (.ldVxK x) s = goOn (s.setReg x (BitVec.ofNat 8 k.val)) := by
  simp only [exec, execLdVxK, h]

theorem ldVxK_ends (x : Reg) (s : State) : Ends (.ldVxK x) s (exec (.ldVxK x) s) := by
  cases h : keyPick (pressedKeys s.keys) with
  | none =>
    have noKey := keyPick_eq_none.1 h
    rw [ldVxK_of_noKey noKey]
    exact .blocked rfl rfl noKey
  | some k =>
    rw [ldVxK_of_key h]
    exact .of_goOn rfl ((Writes.refl ..).setReg List.mem_cons_self List.mem_cons_self _)

theorem exec_skp (x : Reg) (s : State) :
    exec (.skp x) s = withKey (s.reg x) s fun k => skipIf s.keys[k] s := rfl

theorem exec_sknp (x : Reg) (s : State) :
    exec (.sknp x) s = withKey (s.reg x) s fun k => skipIf (!s.keys[k]) s := rfl

/-- Every instruction, in every state, raises its error, blocks, or completes within its footprint. -/
theorem exec_ends (ins : Instr) (s : State) : Ends ins s (exec ins s) := by
  cases ins with
  | ret => exact ret_ends s
  | call nnn => exact call_ends nnn s
  | ldVxK x => exact ldVxK_ends x s
  | jp nnn => exact .of_goTo rfl (.jump nnn) (.refl ..)
  | jpV0 nnn => exact .of_goTo rfl (.jumpWithOffset nnn) (.refl ..)
  | seImm | sneImm | seReg | sneReg => exact .of_skipIf rfl _
  | skp x => rw [exec_skp]; exact .of_withKey rfl fun noError _ => .of_skipIf noError _
  | sknp x => rw [exec_sknp]; exact .of_withKey rfl fun noError _ => .of_skipIf noError _
  | ldImm | addImm | ldReg | orReg | andReg | xorReg | ldVxDt =>
    exact .of_goOn rfl ((Writes.refl ..).setReg List.mem_cons_self List.mem_cons_self _)
  | addReg | subReg | shr | subnReg | shl =>
    exact .of_goOn rfl ((Writes.refl ..).setRegThenFlag List.mem_cons_self List.mem_cons_self
      (by simp [vf]) _ _)
  | rnd =>
    exact .of_goOn rfl (((Writes.refl ..).setReg List.mem_cons_self List.mem_cons_self _).drawn
      (by simp [Instr.footprint]))
  | ldI | addI | ldF => exact .of_goOn rfl ((Writes.refl ..).setI List.mem_cons_self _)
  | ldDtVx => exact .of_goOn rfl ((Writes.refl ..).setDt List.mem_cons_self _)
  | ldStVx => exact .of_goOn rfl ((Writes.refl ..).setSt List.mem_cons_self _)
  | cls => exact .of_goOnRedraw rfl ((Writes.refl ..).setFb List.mem_cons_self _)
  | drw x y n =>
    rw [exec_drw]
    exact .of_withRange rfl fun noError _ => .of_goOnRedraw noError
      (.drewSprite (by simp [Instr.footprint]) (by simp [Instr.footprint]) List.mem_cons_self x y n)
  | ldB x =>
    rw [exec_ldB]
    exact .of_withRange rfl fun noError inside => .of_goOn noError
      (.storedDigits List.mem_cons_self (inside.resolve_left (by omega)) x)
  | ldMemVx x =>
    rw [exec_ldMemVx]
    exact .of_withRange rfl fun noError inside => .of_goOn noError
      (.storedRegs List.mem_cons_self (inside.resolve_left (by omega)))
  | ldVxMem x =>
    rw [exec_ldVxMem]
    exact .of_withRange rfl fun noError _ => .of_goOn noError (.loadedRegs List.mem_cons_self fun _ => id)

end Machine

end Sys2Proof

/-! The statements on every instruction (10_state.md R23 to R33, 60_exceptions.md R231, R232, R236), read off `exec_ends`. -/

namespace Sys2Proof

open Machine

/-- Completing or blocking changes PC, `run` and the result beside what was changed before. -/
theorem UnchangedBut.finish {changed : List Part} {s u : State} (h : UnchangedBut changed s u) (next : Word)
    (r : RunState) (out : TickOutcome) : UnchangedBut ([.pc, .run, .result] ++ changed) s (u.finish next r out) := by
  intro p hp
  obtain ⟨notFinish, notChanged⟩ := not_or.1 (mt List.mem_append.2 hp)
  exact (Part.same_finish notFinish ..).2 (h p notChanged)

/-- The instructions of R231's list have no error. -/
theorem Instr.error_of_raisesNothing {ins : Instr} (h : ins.raisesNothing = true) (s : State) : ins.error s = none := by
  cases ins with
  | ret | call | drw | skp | sknp | ldB | ldMemVx | ldVxMem => exact absurd h Bool.false_ne_true
  | _ => rfl

namespace Machine

theorem ends_of_exec {ins : Instr} {s : State} {r : Result} (h : exec ins s = r) : Ends ins s r := h ▸ exec_ends ins s

/-- No instruction stops the model. -/
theorem exec_next (ins : Instr) (s : State) : ∃ t, exec ins s = .next t := by
  cases h : exec ins s with
  | next t => exact ⟨t, rfl⟩
  | fault r => cases r
  | refused r => cases ends_of_exec h

/-- Where an instruction has an error, it raises that error. -/
theorem exec_of_error {ins : Instr} {s : State} {e : VmError} (h : ins.error s = some e) :
    exec ins s = .next (s.faultWith e) := by
  have ends := exec_ends ins s
  generalize exec ins s = r at ends ⊢
  cases ends with
  | raised error => rw [Option.some.inj (error.symm.trans h)]
  | blocked noError | completed noError => cases noError.symm.trans h

/-- Settles O8: an error changes `run` and the result, a block PC, `run` and the result, and the writes of an
instruction that completes are in its footprint. -/
theorem instructionChangesOnlyItsFootprint : Obligations.InstructionChangesOnlyItsFootprint := by
  intro ins s t h
  cases ends_of_exec h with
  | raised => exact (UnchangedBut.faultWith s _).mono (by simp)
  | blocked => exact (UnchangedBut.refl _ s).finish _ _ _
  | completed _ writes => exact writes.frame.finish _ _ _

/-- Settles O9: only an instruction that completes writes registers, and only those of R23's column. -/
theorem registersChangeOnlyWhereListed : Obligations.RegistersChangeOnlyWhereListed := by
  intro ins s t h
  cases ends_of_exec h with
  | raised | blocked => exact fun _ _ => rfl
  | completed _ writes => exact writes.regsFrame

/-- Settles O10: of the three ends only the block leaves `WaitingForKey`. -/
theorem onlyKeyWaitSuspends : Obligations.OnlyKeyWaitSuspends := by
  intro ins s t h waiting
  cases ends_of_exec h with
  | raised | completed => cases waiting
  | blocked _ isKeyWait noKey => exact ⟨⟨_, isKeyWait⟩, noKey, rfl⟩

/-- Settles O11: an instruction without an error blocks or completes, and neither holds a fault. -/
theorem listedInstructionsNeverRaise : Obligations.ListedInstructionsNeverRaise := by
  intro ins s listed
  obtain ⟨t, h⟩ := exec_next ins s
  refine ⟨t, h, ?_⟩
  cases ends_of_exec h with
  | raised error => cases error.symm.trans (Instr.error_of_raisesNothing listed s)
  | blocked | completed => rfl

/-- Settles O12: of the three ends only error entry leaves a fault, and it starts from the state before. -/
theorem errorsArePrecise : Obligations.ErrorsArePrecise := by
  intro ins s t e h faulted
  cases ends_of_exec h with
  | raised => cases faulted; rfl
  | blocked | completed => cases faulted

end Machine

end Sys2Proof

/-! What a tick at PC, an entry point and a step can leave, once. -/

namespace Sys2Proof

open Machine

/-- The error running the instruction at PC raises, if any, in the priority of 60_exceptions.md R234. -/
def Machine.State.tickError (s : State) : Option VmError :=
  match fetch s with
  | .error e => some e
  | .ok w =>
    match decodeWord w with
    | .unknown raw => some (.unknownInstruction raw)
    | .instr ins => ins.error s

/-- How running the instruction at PC can end. -/
inductive TickEnds (s : State) : Result → Prop
  | raised {e : VmError} (error : s.tickError = some e) : TickEnds s (.next (s.faultWith e))
  | blocked {w : Word} {x : Reg} (noError : s.tickError = none) (fetched : fetch s = .ok w)
    (decoded : decodeWord w = .instr (.ldVxK x)) : TickEnds s (.next (s.finish s.pc .waitingForKey .blocked))
  | completed {w : Word} {ins : Instr} {u : State} {next : Word} {out : TickOutcome} (noError : s.tickError = none)
    (fetched : fetch s = .ok w) (writes : Writes ins.footprint ins.writtenRegs s u) (target : NextPc s next) :
    TickEnds s (.next (u.finish next .running out))

namespace Machine

theorem runAtPc_of_instr {s : State} {w : Word} {ins : Instr} (fetched : fetch s = .ok w)
    (decoded : decodeWord w = .instr ins) : runAtPc s = exec ins s := by
  simp only [runAtPc, fetched, decoded]

theorem State.tickError_of_instr {s : State} {w : Word} {ins : Instr} (fetched : fetch s = .ok w)
    (decoded : decodeWord w = .instr ins) : s.tickError = ins.error s := by
  simp only [State.tickError, fetched, decoded]

theorem runAtPc_ends (s : State) : TickEnds s (runAtPc s) := by
  rcases runAtPc_cases s with ⟨outside, heq⟩ | ⟨-, w, fetched, ⟨unknown, heq⟩ | ⟨ins, decoded, heq⟩⟩
  · rw [heq]
    exact .raised (by simp only [State.tickError, fetch_of_outside outside])
  · rw [heq]
    exact .raised (by simp only [State.tickError, fetched, unknown])
  · have sameError := State.tickError_of_instr fetched decoded
    have ends := exec_ends ins s
    rw [heq]
    generalize exec ins s = r at ends ⊢
    cases ends with
    | raised error => exact .raised (sameError.trans error)
    | blocked noError isKeyWait => exact .blocked (sameError.trans noError) fetched (isKeyWait ▸ decoded)
    | completed noError writes target => exact .completed (sameError.trans noError) fetched writes target

/-- Where the instruction at PC has an error, running it raises that error. -/
theorem runAtPc_of_error {s : State} {e : VmError} (h : s.tickError = some e) : runAtPc s = .next (s.faultWith e) := by
  have ends := runAtPc_ends s
  generalize runAtPc s = r at ends ⊢
  cases ends with
  | raised error => rw [Option.some.inj (error.symm.trans h)]
  | blocked noError | completed noError => cases noError.symm.trans h

/-- The fetch reads memory and PC only. -/
theorem fetch_congr {s t : State} (hmem : t.mem = s.mem) (hpc : t.pc = s.pc) : fetch t = fetch s := by
  simp only [fetch, hmem, hpc]

theorem pc_of_fetch_ok {s : State} {w : Word} (h : fetch s = .ok w) : s.pc.toNat + 2 ≤ 4096 := by
  rcases Nat.lt_or_ge 4096 (s.pc.toNat + 2) with outside | inside
  · cases h.symm.trans (fetch_of_outside outside)
  · exact inside

end Machine

/-- An instruction's error is decided by the registers, I and SP alone. -/
theorem Instr.error_congr {s t : State} (hv : t.v = s.v) (hi : t.i = s.i) (hsp : t.sp = s.sp) (ins : Instr) :
    ins.error t = ins.error s := by
  have hreg : ∀ x, t.reg x = s.reg x := fun x => by rw [State.reg, State.reg, hv]
  cases ins <;> simp only [Instr.error, hreg, hi, hsp]

/-- The error at PC is decided by memory, PC, the registers, I and SP alone. -/
theorem Machine.State.tickError_congr {s t : State} (hmem : t.mem = s.mem) (hpc : t.pc = s.pc) (hv : t.v = s.v)
    (hi : t.i = s.i) (hsp : t.sp = s.sp) : t.tickError = s.tickError := by
  simp only [State.tickError, fetch_congr hmem hpc, Instr.error_congr hv hi hsp]

/-- The state a timer tick leaves (60_exceptions.md R239, R241). -/
def Machine.State.counted (s : State) : State :=
  { s with
    dt := countDown s.dt
    st := countDown s.st
    soundLatch := (soundEdge s.st s.soundLatch).2
    result := .timer (soundEdge s.st s.soundLatch).1 }

/-- The state a keypad write leaves (60_exceptions.md R243). -/
def Machine.State.withKeys (s : State) (keys : Keypad) : State := { s with keys := keys, result := .nothing }

/-- The state a reset call leaves (70_reset_and_hazards.md R272). -/
def Machine.State.afterReset (s : State) : State :=
  { State.reset with keys := s.keys, calls := s.calls, draws := s.draws }

/-- What each entry-point call can leave of a state. -/
inductive Leaves (s : State) : HostCall → State → Prop
  | held {e : VmError} (faulted : s.run = .faulted e) : Leaves s .tick (s.answer (.tick (.error e)))
  | ran {t : State} (unfaulted : s.heldFault = none) (ends : TickEnds s.closeLoad (.next t)) : Leaves s .tick t
  | counted : Leaves s .timerTick s.counted
  | loaded {rom : List Byte} (admitted : s.loadAdmitted = true) (fits : rom.length ≤ 3584) :
    Leaves s (.load rom) ((s.withLoaded (s.mem.writeBlock 0x200 rom)).answer (.load .success))
  | tooLarge {rom : List Byte} (admitted : s.loadAdmitted = true) : Leaves s (.load rom) (s.answer (.load .romTooLarge))
  | reset : Leaves s .reset s.afterReset
  | read : Leaves s .framebufferRead (s.answer (.snapshot s.fb))
  | written (keys : Keypad) : Leaves s (.keypadWrite keys) (s.withKeys keys)

namespace Machine

/-- Every call answers a next state, or is a ROM load that is not admitted. -/
theorem runCall_cases (c : HostCall) (s : State) :
    (∃ t, runCall c s = .next t ∧ Leaves s c t) ∨
    (∃ rom, c = .load rom ∧ s.loadAdmitted = false ∧ runCall c s = .refused .loadNotAdmitted) := by
  cases c with
  | timerTick => exact .inl ⟨_, rfl, .counted⟩
  | reset => exact .inl ⟨_, rfl, .reset⟩
  | framebufferRead => exact .inl ⟨_, rfl, .read⟩
  | keypadWrite keys => exact .inl ⟨_, rfl, .written keys⟩
  | tick =>
    left
    cases hf : s.heldFault with
    | some e =>
      have faulted := heldFault_eq_some.1 hf
      exact ⟨_, instructionTick_of_faulted faulted, .held faulted⟩
    | none =>
      have hends := runAtPc_ends s.closeLoad
      cases hr : runAtPc s.closeLoad with
      | next t => exact ⟨t, (instructionTick_of_unfaulted hf).trans hr, .ran hf (hr ▸ hends)⟩
      | fault r => cases r
      | refused r => cases hr ▸ hends
  | load rom =>
    cases hadm : s.loadAdmitted with
    | false => exact .inr ⟨rom, rfl, rfl, if_neg (by simp [hadm])⟩
    | true =>
      left
      by_cases hlen : rom.length ≤ 3584
      · exact ⟨_, loadRom_of_fits hadm hlen, .loaded hadm hlen⟩
      · exact ⟨_, loadRom_of_tooLarge hadm (by omega), .tooLarge hadm⟩

theorem leaves_of_runCall {c : HostCall} {s t : State} (h : runCall c s = .next t) : Leaves s c t := by
  rcases runCall_cases c s with ⟨u, hu, leaves⟩ | ⟨_, _, _, refused⟩
  · cases h.symm.trans hu; exact leaves
  · cases h.symm.trans refused

/-- A step takes the next call, a tick where none is listed (log 1), and runs it. -/
theorem step_eq_runCall (s : State) : step s = runCall (s.calls.head?.getD .tick) (s.withCalls s.calls.tail) := by
  cases hc : s.calls with
  | nil => exact step_of_tick (by simp [State.tickIsNext, hc]) |>.trans (by rw [hc]; rfl)
  | cons c rest => exact step_of_cons hc

theorem leaves_of_step {s t : State} (h : step s = .next t) :
    Leaves (s.withCalls s.calls.tail) (s.calls.head?.getD .tick) t :=
  leaves_of_runCall ((step_eq_runCall s).symm.trans h)

/-- Package of an invariant's step: it does not look at the list of calls, and every call keeps it. -/
theorem step_keeps {Inv : State → Prop} (taken : ∀ s cs, Inv s → Inv (s.withCalls cs))
    (kept : ∀ s c t, Inv s → Leaves s c t → Inv t) (s t : State) (h : Inv s) (hstep : step s = .next t) : Inv t :=
  kept _ _ t (taken s _ h) (leaves_of_step hstep)

end Machine

end Sys2Proof

/-! The invariants of every step. -/

namespace Sys2Proof

open Machine

/-- Where PC can be fetched from, no instruction goes on beyond the farthest jump (40_control_flow.md R104). -/
theorem NextPc.toNat_le {s : State} {next : Word} (hpc : s.pc.toNat + 2 ≤ 4096)
    (hstack : ∀ j : Fin 16, s.stack[j].toNat ≤ 0x1000) (h : NextPc s next) : next.toNat ≤ 0x10FE := by
  cases h with
  | goOn | skip => rw [BitVec.toNat_add]; simp; omega
  | jump nnn => rw [toNat_zext]; omega
  | jumpWithOffset nnn =>
    rw [BitVec.toNat_add, toNat_zext, BitVec.toNat_setWidth_of_le (by decide)]
    omega
  | back j => exact Nat.le_trans (hstack j) (by decide)

/-- A held fault is precise exactly where ROM load is closed and the fault is the error at PC. -/
theorem heldFaultIsPrecise_iff {s : State} :
    HeldFaultIsPrecise s ↔ ∀ e, s.run = .faulted e → s.loadAdmitted = false ∧ s.tickError = some e := by
  refine forall₂_congr fun e faulted => and_congr_right fun _ => ⟨fun h => ?_, fun h => ?_⟩
  · generalize hu : ({ s with result := .tick (.error e) } : State) = u at h
    have hrun : u.run = .faulted e := hu ▸ faulted
    cases h ▸ runAtPc_ends s with
    | raised error => cases hrun; exact error
    | blocked | completed => cases hrun
  · rw [runAtPc_of_error h, State.faultWith, ← faulted]

theorem controlFlowBounded_reset : ControlFlowBounded State.reset := ⟨by decide, by decide⟩

/-- Waiting at a key-wait is read from `run`, `loadAdmitted`, PC and memory. -/
theorem WaitsAtKeyWait.of_same {s t : State} (h : WaitsAtKeyWait s) (hrun : t.run = s.run)
    (hadm : t.loadAdmitted = s.loadAdmitted) (hmem : t.mem = s.mem) (hpc : t.pc = s.pc) : WaitsAtKeyWait t := by
  intro waiting
  rw [hadm, fetch_congr hmem hpc]
  exact h (hrun ▸ waiting)

/-- A precise held fault is read from `run`, `loadAdmitted` and what decides the error at PC. -/
theorem HeldFaultIsPrecise.of_same {s t : State} (h : HeldFaultIsPrecise s) (hrun : t.run = s.run)
    (hadm : t.loadAdmitted = s.loadAdmitted) (hmem : t.mem = s.mem) (hpc : t.pc = s.pc) (hv : t.v = s.v)
    (hi : t.i = s.i) (hsp : t.sp = s.sp) : HeldFaultIsPrecise t := by
  rw [heldFaultIsPrecise_iff] at h ⊢
  rwa [hrun, hadm, State.tickError_congr hmem hpc hv hi hsp]

namespace Machine

/-- Settles O52: the only calls that write memory are a tick whose instruction completes and an admitted ROM load that
fits, and both write inside the address space. -/
theorem stepKeepsMemoryCanonical : Obligations.StepKeepsMemoryCanonical := by
  refine step_keeps (fun _ _ h => h) fun s c t h leaves => ?_
  cases leaves with
  | held | counted | tooLarge | read | written => exact h
  | reset => exact Memory.wf_nil
  | loaded _ fits => exact Memory.writeBlock_wf h (by omega)
  | ran _ ends =>
    cases ends with
    | raised | blocked => exact h
    | completed _ _ writes => exact writes.memory h

/-- Settles O53: a tick that leaves the engine waiting was at a key-wait, closed ROM load and changed neither PC nor
memory; no other call moves an engine that waits. -/
theorem stepKeepsWaitingAtTheKeyWait : Obligations.StepKeepsWaitingAtTheKeyWait := by
  refine step_keeps (fun _ _ h => h.of_same rfl rfl rfl rfl) fun s c t h leaves => ?_
  cases leaves with
  | held | counted | tooLarge | read | written => exact h.of_same rfl rfl rfl rfl
  | reset => exact fun waiting => nomatch waiting
  | loaded admitted =>
    intro waiting
    exact absurd admitted (by simp [(h waiting).1])
  | ran _ ends =>
    cases ends with
    | raised | completed => exact fun waiting => nomatch waiting
    | blocked _ fetched decoded => exact fun _ => ⟨rfl, _, _, fetched, decoded⟩

/-- Settles O54: a tick that raises does so for the error at PC, which is decided by parts that error entry and the
calls of a faulted engine leave alone. -/
theorem stepKeepsHeldFaultPrecise : Obligations.StepKeepsHeldFaultPrecise := by
  refine step_keeps (fun _ _ h => h.of_same rfl rfl rfl rfl rfl rfl rfl) fun s c t h leaves => ?_
  cases leaves with
  | held | counted | tooLarge | read | written => exact h.of_same rfl rfl rfl rfl rfl rfl rfl
  | reset => exact fun _ faulted => nomatch faulted
  | loaded admitted =>
    intro e faulted
    exact absurd admitted (by simp [(h e faulted).1])
  | ran _ ends =>
    cases ends with
    | blocked | completed => exact fun _ faulted => nomatch faulted
    | raised error =>
      rw [heldFaultIsPrecise_iff]
      intro e faulted
      cases faulted
      exact ⟨rfl, (State.tickError_congr rfl rfl rfl rfl rfl).trans error⟩

/-- Settles O55: an instruction that completes was fetched from a PC at most 0xFFE, so its return address is at most
0x1000 and the farthest it goes is 0xFFF + 0xFF. -/
theorem stepKeepsControlFlowBounded : Obligations.StepKeepsControlFlowBounded := by
  refine step_keeps (fun _ _ h => h) fun s c t h leaves => ?_
  cases leaves with
  | held | counted | tooLarge | read | written | loaded => exact h
  | reset => exact controlFlowBounded_reset
  | ran _ ends =>
    cases ends with
    | raised | blocked => exact h
    | completed _ fetched writes target =>
      obtain ⟨-, hstack⟩ := h
      have hpc : s.pc.toNat + 2 ≤ 4096 := pc_of_fetch_ok fetched
      refine ⟨NextPc.toNat_le (s := s.closeLoad) hpc hstack target, fun j => ?_⟩
      rcases writes.stack j with kept | pushed
      · exact Nat.le_trans (Nat.le_of_eq (congrArg BitVec.toNat kept)) (hstack j)
      · refine Nat.le_trans (Nat.le_of_eq (congrArg BitVec.toNat pushed)) ?_
        rw [BitVec.toNat_add]; simp; omega

/-- Settles O56: memory is empty, the engine runs, PC is the entry point and the stack is zero. -/
theorem resetHasEveryInvariant : Obligations.ResetHasEveryInvariant :=
  ⟨Memory.wf_nil, (nomatch ·), fun _ => (nomatch ·), controlFlowBounded_reset⟩

end Machine

end Sys2Proof

/-! The statements on decoding and encoding (30_encoding.md R70 to R78). -/

namespace Sys2Proof

/-! Decoding an encoded instruction, by format. -/

theorem decodeWord_encode {ins : Instr} (h : ins.wellFormed = true) : decodeWord (encode ins) = .instr ins := by
  cases ins with
  | cls | ret => decide
  | jp | call | ldI | jpV0 => simp [encode, decodeWord, fieldOp_fa, fieldNNN_fa, -BitVec.toFin_ofNat]
  | seImm | sneImm | ldImm | addImm | rnd =>
    simp [encode, decodeWord, fieldOp_fxi, fieldX_fxi, fieldNN_fxi, regBits_toFin]
  | seReg | sneReg =>
    simp [encode, decodeWord, fieldOp_fxy, fieldX_fxy, fieldY_fxy, fieldN_fxy, regBits_toFin]
  | ldReg | orReg | andReg | xorReg | addReg | subReg | shr | subnReg | shl =>
    simp [encode, decodeWord, decodeEight, fieldOp_fxy, fieldX_fxy, fieldY_fxy, fieldN_fxy, regBits_toFin,
      -BitVec.toFin_ofNat]
  | drw x y n =>
    have hn : n < 16 := Nat.lt_succ_of_le (of_decide_eq_true h)
    simp [encode, decodeWord, fieldOp_fxy, fieldX_fxy, fieldY_fxy, fieldN_fxy, regBits_toFin, Nat.mod_eq_of_lt hn]
  | skp | sknp => simp [encode, decodeWord, decodeE, fieldOp_fxi, fieldX_fxi, fieldNN_fxi, regBits_toFin]
  | ldVxDt | ldVxK | ldDtVx | ldStVx | addI | ldF | ldB | ldMemVx | ldVxMem =>
    simp [encode, decodeWord, decodeF, fieldOp_fxi, fieldX_fxi, fieldNN_fxi, regBits_toFin]

/-! A word is its fixed digits and its fields, by format. -/

theorem regBits_of_toFin (b : BitVec 4) : regBits b.toFin = b := by simp [regBits]

theorem word_eq_fa {w : Word} {o : BitVec 4} (hop : fieldOp w = o.toFin) : o ++ fieldNNN w = w := by
  rw [← BitVec.eq_of_toFin_eq hop]
  exact (BitVec.extractLsb'_append_extractLsb'_eq_extractLsb' rfl).trans BitVec.extractLsb'_eq_self

theorem op_append_regBits {w : Word} {o : BitVec 4} (hop : fieldOp w = o.toFin) :
    (o ++ regBits (fieldX w) : Byte) = w.extractLsb' 8 8 := by
  rw [← BitVec.eq_of_toFin_eq hop, fieldX, regBits_of_toFin]
  exact BitVec.extractLsb'_append_extractLsb'_eq_extractLsb' rfl

theorem word_eq_fxi {w : Word} {o : BitVec 4} {b : Byte} (hop : fieldOp w = o.toFin) (hnn : fieldNN w = b) :
    o ++ regBits (fieldX w) ++ b = w := by
  rw [op_append_regBits hop, ← hnn]
  exact (BitVec.extractLsb'_append_extractLsb'_eq_extractLsb' rfl).trans BitVec.extractLsb'_eq_self

theorem word_eq_fxy {w : Word} {o n : BitVec 4} (hop : fieldOp w = o.toFin) (hn : fieldN w = n.toFin) :
    o ++ regBits (fieldX w) ++ regBits (fieldY w) ++ n = w := by
  rw [op_append_regBits hop, fieldY, regBits_of_toFin, ← BitVec.eq_of_toFin_eq hn]
  exact (congrArg (· ++ w.extractLsb' 0 4) (BitVec.extractLsb'_append_extractLsb'_eq_extractLsb' rfl)).trans
    ((BitVec.extractLsb'_append_extractLsb'_eq_extractLsb' rfl).trans BitVec.extractLsb'_eq_self)

/-! Encoding a decoded word, by major nibble. -/

/-- An instruction is well-formed and `w` is its word. -/
def Instr.IsAt (ins : Instr) (w : Word) : Prop := encode ins = w ∧ ins.wellFormed = true

theorem isAt_of_decodeZero {w : Word} {ins : Instr} (h : decodeZero w = .instr ins) : ins.IsAt w := by
  unfold decodeZero at h
  split at h
  · next hw => cases h; exact ⟨hw.symm, rfl⟩
  · split at h
    · next hw => cases h; exact ⟨hw.symm, rfl⟩
    · cases h

theorem isAt_of_decodeEight {w : Word} {ins : Instr} (hop : fieldOp w = 0x8) (h : decodeEight w = .instr ins) :
    ins.IsAt w := by
  unfold decodeEight at h
  split at h <;> cases h
  all_goals exact ⟨word_eq_fxy hop ‹fieldN w = _›, rfl⟩

theorem isAt_of_decodeE {w : Word} {ins : Instr} (hop : fieldOp w = 0xE) (h : decodeE w = .instr ins) : ins.IsAt w := by
  unfold decodeE at h
  split at h <;> cases h
  all_goals exact ⟨word_eq_fxi hop ‹fieldNN w = _›, rfl⟩

theorem isAt_of_decodeF {w : Word} {ins : Instr} (hop : fieldOp w = 0xF) (h : decodeF w = .instr ins) : ins.IsAt w := by
  unfold decodeF at h
  split at h <;> cases h
  all_goals exact ⟨word_eq_fxi hop ‹fieldNN w = _›, rfl⟩

/-- A register pair behind a fixed last digit 0, the shape of 5XY0 and 9XY0. -/
theorem isAt_of_ite {w : Word} {i ins : Instr}
    (h : (if fieldN w = 0 then Decoded.instr i else .unknown w) = .instr ins) (hat : fieldN w = 0 → i.IsAt w) :
    ins.IsAt w := by
  split at h
  · next hn => cases h; exact hat hn
  · cases h

theorem isAt_of_decodeWord {w : Word} {ins : Instr} (h : decodeWord w = .instr ins) : ins.IsAt w := by
  match hop : fieldOp w with
  | 0x0 => exact isAt_of_decodeZero (decodeWord_op0 hop ▸ h)
  | 0x1 => cases (decodeWord_op1 hop).symm.trans h; exact ⟨word_eq_fa hop, rfl⟩
  | 0x2 => cases (decodeWord_op2 hop).symm.trans h; exact ⟨word_eq_fa hop, rfl⟩
  | 0x3 => cases (decodeWord_op3 hop).symm.trans h; exact ⟨word_eq_fxi hop rfl, rfl⟩
  | 0x4 => cases (decodeWord_op4 hop).symm.trans h; exact ⟨word_eq_fxi hop rfl, rfl⟩
  | 0x5 => exact isAt_of_ite ((decodeWord_op5 hop).symm.trans h) fun hn => ⟨word_eq_fxy hop hn, rfl⟩
  | 0x6 => cases (decodeWord_op6 hop).symm.trans h; exact ⟨word_eq_fxi hop rfl, rfl⟩
  | 0x7 => cases (decodeWord_op7 hop).symm.trans h; exact ⟨word_eq_fxi hop rfl, rfl⟩
  | 0x8 => exact isAt_of_decodeEight hop ((decodeWord_op8 hop).symm.trans h)
  | 0x9 => exact isAt_of_ite ((decodeWord_op9 hop).symm.trans h) fun hn => ⟨word_eq_fxy hop hn, rfl⟩
  | 0xA => cases (decodeWord_opA hop).symm.trans h; exact ⟨word_eq_fa hop, rfl⟩
  | 0xB => cases (decodeWord_opB hop).symm.trans h; exact ⟨word_eq_fa hop, rfl⟩
  | 0xC => cases (decodeWord_opC hop).symm.trans h; exact ⟨word_eq_fxi hop rfl, rfl⟩
  | 0xD =>
    cases (decodeWord_opD hop).symm.trans h
    exact ⟨word_eq_fxy hop (by simp), decide_eq_true (Nat.le_of_lt_succ (fieldN w).isLt)⟩
  | 0xE => exact isAt_of_decodeE hop ((decodeWord_opE hop).symm.trans h)
  | 0xF => exact isAt_of_decodeF hop ((decodeWord_opF hop).symm.trans h)
  | ⟨k + 16, hk⟩ => omega

/-! The fields of a word as numbers. -/

theorem fieldX_val (w : Word) : (fieldX w).val = w.toNat / 256 % 16 := by
  simp [fieldX, Nat.shiftRight_eq_div_pow]

theorem fieldY_val (w : Word) : (fieldY w).val = w.toNat / 16 % 16 := by
  simp [fieldY, Nat.shiftRight_eq_div_pow]

theorem fieldN_val (w : Word) : (fieldN w).val = w.toNat % 16 := by
  simp [fieldN]

theorem fieldNN_toNat (w : Word) : (fieldNN w).toNat = w.toNat % 256 := by
  simp [fieldNN]

theorem fieldNNN_toNat (w : Word) : (fieldNNN w).toNat = w.toNat % 4096 := by
  simp [fieldNNN]

/-- The operands of a well-formed instruction are the fields of its word. -/
theorem operandsAreFields_encode {ins : Instr} (h : ins.wellFormed = true) :
    ins.operandsAreFields (encode ins).toNat := by
  cases ins with
  | cls | ret => trivial
  | jp | call | ldI | jpV0 => simp only [Instr.operandsAreFields, encode, ← fieldNNN_toNat, fieldNNN_fa]
  | seImm | sneImm | ldImm | addImm | rnd =>
    simp only [Instr.operandsAreFields, encode, ← fieldX_val, ← fieldNN_toNat, fieldX_fxi, fieldNN_fxi, regBits_toFin,
      and_self]
  | seReg | sneReg | ldReg | orReg | andReg | xorReg | addReg | subReg | shr | subnReg | shl =>
    simp only [Instr.operandsAreFields, encode, ← fieldX_val, ← fieldY_val, fieldX_fxy, fieldY_fxy, regBits_toFin, and_self]
  | drw x y n =>
    have hn : n < 16 := Nat.lt_succ_of_le (of_decide_eq_true h)
    simp [Instr.operandsAreFields, encode, ← fieldX_val, ← fieldY_val, ← fieldN_val, fieldX_fxy, fieldY_fxy, fieldN_fxy,
      regBits_toFin, Nat.mod_eq_of_lt hn]
  | skp | sknp | ldVxDt | ldVxK | ldDtVx | ldStVx | addI | ldF | ldB | ldMemVx | ldVxMem =>
    simp only [Instr.operandsAreFields, encode, ← fieldX_val, fieldX_fxi, regBits_toFin]

/-! The rows of the opcode table a word selects. -/

/-- No word selects two rows: their patterns differ in a bit both masks keep. -/
theorem opcodeTable_disjoint :
    ∀ r ∈ opcodeTable, ∀ q ∈ opcodeTable, r.pattern &&& q.mask = q.pattern &&& r.mask → r = q := by decide

theorem OpcodeRow.and_eq_of_selects {r : OpcodeRow} {w : Word} (h : r.selects w = true) : w &&& r.mask = r.pattern :=
  eq_of_beq h

theorem eq_of_selects {r q : OpcodeRow} {w : Word} (hr : r ∈ opcodeTable) (hq : q ∈ opcodeTable)
    (rSelects : r.selects w = true) (qSelects : q.selects w = true) : r = q := by
  apply opcodeTable_disjoint r hr q hq
  rw [← OpcodeRow.and_eq_of_selects rSelects, ← OpcodeRow.and_eq_of_selects qSelects, BitVec.and_assoc,
    BitVec.and_assoc, BitVec.and_comm r.mask]

/-- An instruction's row is in the table, and its word selects it. -/
theorem encode_selects_row : ∀ ins : Instr, Laws.EncodeRow.Statement ins
  | .cls => Laws.EncodeRow.cls
  | .ret => Laws.EncodeRow.ret
  | .jp x => Laws.EncodeRow.jp x
  | .call x => Laws.EncodeRow.call x
  | .seImm x y => Laws.EncodeRow.seImm x y
  | .sneImm x y => Laws.EncodeRow.sneImm x y
  | .seReg x y => Laws.EncodeRow.seReg x y
  | .ldImm x y => Laws.EncodeRow.ldImm x y
  | .addImm x y => Laws.EncodeRow.addImm x y
  | .ldReg x y => Laws.EncodeRow.ldReg x y
  | .orReg x y => Laws.EncodeRow.orReg x y
  | .andReg x y => Laws.EncodeRow.andReg x y
  | .xorReg x y => Laws.EncodeRow.xorReg x y
  | .addReg x y => Laws.EncodeRow.addReg x y
  | .subReg x y => Laws.EncodeRow.subReg x y
  | .shr x y => Laws.EncodeRow.shr x y
  | .subnReg x y => Laws.EncodeRow.subnReg x y
  | .shl x y => Laws.EncodeRow.shl x y
  | .sneReg x y => Laws.EncodeRow.sneReg x y
  | .ldI x => Laws.EncodeRow.ldI x
  | .jpV0 x => Laws.EncodeRow.jpV0 x
  | .rnd x y => Laws.EncodeRow.rnd x y
  | .drw x y n => Laws.EncodeRow.drw x y n
  | .skp x => Laws.EncodeRow.skp x
  | .sknp x => Laws.EncodeRow.sknp x
  | .ldVxDt x => Laws.EncodeRow.ldVxDt x
  | .ldVxK x => Laws.EncodeRow.ldVxK x
  | .ldDtVx x => Laws.EncodeRow.ldDtVx x
  | .ldStVx x => Laws.EncodeRow.ldStVx x
  | .addI x => Laws.EncodeRow.addI x
  | .ldF x => Laws.EncodeRow.ldF x
  | .ldB x => Laws.EncodeRow.ldB x
  | .ldMemVx x => Laws.EncodeRow.ldMemVx x
  | .ldVxMem x => Laws.EncodeRow.ldVxMem x

/-- The row of an instruction is the only one its word selects. -/
theorem filter_selects_encode (ins : Instr) : (opcodeTable.filter fun r => r.selects (encode ins)) = [ins.row] := by
  obtain ⟨hmem, hsel⟩ := encode_selects_row ins
  have hiff : ∀ r ∈ opcodeTable, r.selects (encode ins) = decide (r = ins.row) := fun r hr =>
    Bool.eq_iff_iff.2 ⟨fun h => decide_eq_true (eq_of_selects hr hmem h hsel), fun h => of_decide_eq_true h ▸ hsel⟩
  have listedOnce : ∀ q ∈ opcodeTable, (opcodeTable.filter fun r => decide (r = q)) = [q] := by decide
  rw [List.filter_congr hiff, listedOnce _ hmem]

/-! A word that selects a row is decoded to an instruction: the decoder reads only bits the row's mask keeps. -/

theorem fieldOp_and {w m : Word} (hm : m.extractLsb' 12 4 = 0xF#4) : fieldOp (w &&& m) = fieldOp w := by
  rw [fieldOp, BitVec.extractLsb'_and, hm, show w.extractLsb' 12 4 &&& 0xF#4 = _ from BitVec.and_allOnes, fieldOp]

theorem fieldN_and {w m : Word} (hm : m.extractLsb' 0 4 = 0xF#4) : fieldN (w &&& m) = fieldN w := by
  rw [fieldN, BitVec.extractLsb'_and, hm, show w.extractLsb' 0 4 &&& 0xF#4 = _ from BitVec.and_allOnes, fieldN]

theorem fieldNN_and {w m : Word} (hm : m.extractLsb' 0 8 = 0xFF#8) : fieldNN (w &&& m) = fieldNN w := by
  rw [fieldNN, BitVec.extractLsb'_and, hm, show w.extractLsb' 0 8 &&& 0xFF#8 = _ from BitVec.and_allOnes, fieldNN]

/-- A word decodes to an instruction. -/
def Decoded.isInstr : Decoded → Bool
  | .instr _ => true
  | .unknown _ => false

theorem isInstr_decodeEight {w p : Word} (hn : fieldN w = fieldN p) :
    (decodeEight w).isInstr = (decodeEight p).isInstr := by
  unfold decodeEight
  rw [hn]
  split <;> rfl

theorem isInstr_decodeE {w p : Word} (hnn : fieldNN w = fieldNN p) : (decodeE w).isInstr = (decodeE p).isInstr := by
  unfold decodeE
  rw [hnn]
  split <;> rfl

theorem isInstr_decodeF {w p : Word} (hnn : fieldNN w = fieldNN p) : (decodeF w).isInstr = (decodeF p).isInstr := by
  unfold decodeF
  rw [hnn]
  split <;> rfl

/-- The bits each row of the table fixes: the major nibble; all of it, the last digit or the last two by major nibble. -/
theorem opcodeTable_masks : ∀ r ∈ opcodeTable, r.mask.extractLsb' 12 4 = 0xF#4 ∧
    (fieldOp r.pattern = 0x0 → r.mask = 0xFFFF) ∧
    (fieldOp r.pattern = 0x5 ∨ fieldOp r.pattern = 0x8 ∨ fieldOp r.pattern = 0x9 → r.mask.extractLsb' 0 4 = 0xF#4) ∧
    (fieldOp r.pattern = 0xE ∨ fieldOp r.pattern = 0xF → r.mask.extractLsb' 0 8 = 0xFF#8) := by decide

theorem isInstr_decodeWord_of_selects {r : OpcodeRow} {w : Word} (hr : r ∈ opcodeTable) (h : r.selects w = true) :
    (decodeWord w).isInstr = (decodeWord r.pattern).isInstr := by
  obtain ⟨keepsOp, keepsAll, keepsN, keepsNN⟩ := opcodeTable_masks r hr
  have hand : w &&& r.mask = r.pattern := OpcodeRow.and_eq_of_selects h
  have hop : fieldOp w = fieldOp r.pattern := by rw [← hand, fieldOp_and keepsOp]
  have hn (keeps : r.mask.extractLsb' 0 4 = 0xF#4) : fieldN w = fieldN r.pattern := by rw [← hand, fieldN_and keeps]
  have hnn (keeps : r.mask.extractLsb' 0 8 = 0xFF#8) : fieldNN w = fieldNN r.pattern := by rw [← hand, fieldNN_and keeps]
  match hp : fieldOp r.pattern with
  | 0x0 => rw [← hand, keepsAll hp, show w &&& 0xFFFF = w from BitVec.and_allOnes]
  | 0x1 | 0x2 | 0x3 | 0x4 | 0x6 | 0x7 | 0xA | 0xB | 0xC | 0xD => simp [decodeWord, hop, hp, Decoded.isInstr]
  | 0x5 => rw [decodeWord_op5 (hop.trans hp), decodeWord_op5 hp, hn (keepsN (by simp [hp]))]; split <;> rfl
  | 0x9 => rw [decodeWord_op9 (hop.trans hp), decodeWord_op9 hp, hn (keepsN (by simp [hp]))]; split <;> rfl
  | 0x8 => rw [decodeWord_op8 (hop.trans hp), decodeWord_op8 hp, isInstr_decodeEight (hn (keepsN (by simp [hp])))]
  | 0xE => rw [decodeWord_opE (hop.trans hp), decodeWord_opE hp, isInstr_decodeE (hnn (keepsNN (by simp [hp])))]
  | 0xF => rw [decodeWord_opF (hop.trans hp), decodeWord_opF hp, isInstr_decodeF (hnn (keepsNN (by simp [hp])))]
  | ⟨k + 16, hk⟩ => omega

/-- A word that decodes to no instruction selects no row. -/
theorem selects_eq_false_of_unknown {r : OpcodeRow} {w raw : Word} (hr : r ∈ opcodeTable)
    (unknown : decodeWord w = .unknown raw) : r.selects w = false := by
  refine Bool.eq_false_iff.2 fun selects => ?_
  have rowsDecode : ∀ r ∈ opcodeTable, (decodeWord r.pattern).isInstr = true := by decide
  have known : (decodeWord w).isInstr = true :=
    (isInstr_decodeWord_of_selects hr selects).trans (rowsDecode r hr)
  rw [unknown] at known
  exact Bool.false_ne_true known

namespace Machine

/-- Settles O13: the fields of an encoded instruction are its operands, by format, and the two bytes of a word give it
back. -/
theorem decodeOfEncodeIsTheInstruction : Obligations.DecodeOfEncodeIsTheInstruction := by
  intro ins h
  have hword : decodeWord (encode ins) = .instr ins := decodeWord_encode h
  refine ⟨hword, fun rest => ?_⟩
  have hbytes : encodeBytes ins ++ rest = highByte (encode ins) :: lowByte (encode ins) :: rest := rfl
  simp only [hbytes, decodeBytes, wordOfBytes_highByte_lowByte, hword]

/-- Settles O14: a word is its fixed digits and its fields. -/
theorem decodedWordReencodesToItself : Obligations.DecodedWordReencodesToItself :=
  fun _ _ h => isAt_of_decodeWord h

/-- Settles O58: the word is the instruction's encoding, and the fields of an encoding are the operands. -/
theorem decodedOperandsAreTheFields : Obligations.DecodedOperandsAreTheFields := by
  intro w ins h
  obtain ⟨rfl, wf⟩ := isAt_of_decodeWord h
  exact operandsAreFields_encode wf

/-- Settles O15: a decoded word is an encoding and selects its instruction's row, which no other row overlaps; a word
that selects a row is decoded to an instruction. -/
theorem decodeFollowsTheOpcodeTable : Obligations.DecodeFollowsTheOpcodeTable := by
  refine fun w => ⟨fun ins h => ?decoded, fun noInstr => ?unknown⟩
  case decoded =>
    obtain ⟨rfl, -⟩ := isAt_of_decodeWord h
    exact filter_selects_encode ins
  case unknown =>
    cases h : decodeWord w with
    | instr ins => exact absurd h (noInstr ins)
    | unknown raw =>
      refine ⟨by rw [decodeWord_unknown h], List.filter_eq_nil_iff.2 fun r hr => ?_⟩
      rw [selects_eq_false_of_unknown hr h]
      exact Bool.false_ne_true

/-- Settles O16: the decoder run on each of the words. -/
theorem writtenOutWordsDecode : Obligations.WrittenOutWordsDecode := by
  unfold Obligations.WrittenOutWordsDecode
  decide

end Machine

end Sys2Proof

/-! The statements on the state after reset and on what can be read of a state (10_state.md R20, R37). -/

namespace Sys2Proof.Machine

theorem resetByte_eq (a : Nat) : resetByte a = glyphRom[a]?.getD 0 := by
  rw [resetByte, fontBase, if_pos (Nat.zero_le a), Nat.sub_zero, List.getD_eq_getElem?_getD]

/-- Settles O1: nothing is listed, so memory reads as its reset contents; every other part is the value reset gives it. -/
theorem resetStateHoldsSpecValues : Obligations.ResetStateHoldsSpecValues := by
  have hlength : glyphRom.length = 80 := by decide
  have hbyte (a : Nat) : State.reset.mem.byte a = glyphRom[a]?.getD 0 := resetByte_eq a
  refine ⟨fun a _ => hbyte a, hlength, fun a ha => ?_, rfl, by decide, rfl, rfl, by decide, rfl, rfl, rfl,
    Framebuffer.pixel_clear, rfl, rfl, rfl⟩
  rw [hbyte, List.getElem?_eq_none (by omega)]
  rfl

/-- A canonical memory whose cells all lie above `k` reads as reset at `k`. -/
theorem Memory.not_wfFrom_succ {m : Memory} {k : Nat} (h : m.byte k ≠ resetByte k) : ¬Memory.wfFrom (k + 1) m = true :=
  fun hwf => h (Memory.byte_below hwf (Nat.lt_succ_self k))

theorem Memory.byte_cons_self (k : Nat) (b : Byte) (rest : Memory) : Memory.byte ((k, b) :: rest) k = b := if_pos rfl

theorem Memory.byte_cons_of_ne {k a : Nat} (h : k ≠ a) (b : Byte) (rest : Memory) :
    Memory.byte ((k, b) :: rest) a = Memory.byte rest a := if_neg h

/-- Canonical memories that read the same have the same cells: the lowest cell of one is the lowest cell of the other. -/
theorem Memory.eq_of_byte_eq {low : Nat} {m m' : Memory} (hm : Memory.wfFrom low m = true)
    (hm' : Memory.wfFrom low m' = true) (h : ∀ a, m.byte a = m'.byte a) : m = m' := by
  induction m generalizing low m' with
  | nil =>
    cases m' with
    | nil => rfl
    | cons c' rest' =>
      obtain ⟨k', b'⟩ := c'
      obtain ⟨-, -, hb', -⟩ := Memory.wfFrom_cons.1 hm'
      exact absurd rfl (Memory.not_wfFrom_succ (m := []) (by rwa [h, Memory.byte_cons_self]))
  | cons c rest ih =>
    obtain ⟨k, b⟩ := c
    obtain ⟨hlow, hk, hb, hrest⟩ := Memory.wfFrom_cons.1 hm
    have readsCell : m'.byte k = b := by rw [← h, Memory.byte_cons_self]
    cases m' with
    | nil => exact absurd rfl (Memory.not_wfFrom_succ (m := []) (by rwa [readsCell]))
    | cons c' rest' =>
      obtain ⟨k', b'⟩ := c'
      obtain ⟨hlow', hk', hb', hrest'⟩ := Memory.wfFrom_cons.1 hm'
      have notBelow : ¬k < k' := fun hlt => Memory.not_wfFrom_succ (by rwa [readsCell])
        (Memory.wfFrom_cons.2 ⟨hlt, hk', hb', hrest'⟩)
      have notAbove : ¬k' < k := fun hlt => Memory.not_wfFrom_succ (by rwa [h, Memory.byte_cons_self])
        (Memory.wfFrom_cons.2 ⟨hlt, hk, hb, hrest⟩)
      obtain rfl : k = k' := by omega
      obtain rfl : b' = b := by rwa [Memory.byte_cons_self] at readsCell
      rw [ih hrest hrest' fun a => ?_]
      by_cases hka : k = a
      · subst hka
        rw [Memory.byte_below hrest (Nat.lt_succ_self k), Memory.byte_below hrest' (Nat.lt_succ_self k)]
      · have := h a
        rwa [Memory.byte_cons_of_ne hka, Memory.byte_cons_of_ne hka] at this

/-- Settles O57: every field is decided by what is read of it, memory because it is canonical. -/
theorem stateIsWhatCanBeRead : Obligations.StateIsWhatCanBeRead := by
  intro s t hs ht same
  have hmem : t.mem = s.mem := Memory.eq_of_byte_eq ht hs (same .mem)
  have hv : t.v = s.v := Vector.ext fun k hk => same .v ⟨k, hk⟩
  have hstack : t.stack = s.stack := Vector.ext fun k hk => same .stack ⟨k, hk⟩
  have hfb : t.fb = s.fb := Framebuffer.ext_pixel (same .fb)
  have hkeys : t.keys = s.keys := Vector.ext fun k hk => same .keys ⟨k, hk⟩
  cases s
  cases t
  exact (State.mk.injEq ..).mpr ⟨hmem, hv, same .i, same .pc, hstack, same .sp, same .dt, same .st, hfb, same .run,
    same .soundLatch, same .loadAdmitted, hkeys, same .calls, same .result, same .draws⟩

end Sys2Proof.Machine

/-! The statements on the step, the tick and the entry points (30_encoding.md R81, 60_exceptions.md R232 to R245). -/

namespace Sys2Proof

open Machine

/-- A result that is error entry from `s`. -/
theorem Raises.of_eq {s : State} {e : VmError} {r : Result} (h : r = .next (s.faultWith e)) : Raises s e r :=
  ⟨_, h, rfl, rfl, .faultWith s e⟩

/-- A timer tick changes the timers, the latch and the result only. -/
theorem Part.same_counted {s u : State} {p : Part} (hp : p ∉ [Part.dt, .st, .soundLatch, .result]) :
    p.same s u.counted ↔ p.same s u := by
  cases p with
  | dt | st | soundLatch | result => simp at hp
  | _ => exact Iff.rfl

theorem UnchangedBut.counted_withCalls (s : State) (cs : List HostCall) :
    UnchangedBut [.dt, .st, .soundLatch, .calls, .result] s (s.withCalls cs).counted := by
  intro p hp
  obtain ⟨notDt, notSt, notLatch, notCalls, notResult⟩ :
    p ≠ .dt ∧ p ≠ .st ∧ p ≠ .soundLatch ∧ p ≠ .calls ∧ p ≠ .result := by simpa using hp
  exact (Part.same_counted (by simp [notDt, notSt, notLatch, notResult])).2
    ((Part.same_withCalls notCalls cs).2 (p.same_refl s))

/-- A keypad write changes the keypad flags and the result only. -/
theorem Part.same_withKeys {s u : State} {p : Part} (hp : p ∉ [Part.keys, .result]) (keys : Keypad) :
    p.same s (u.withKeys keys) ↔ p.same s u := by
  cases p with
  | keys | result => simp at hp
  | _ => exact Iff.rfl

theorem UnchangedBut.withKeys_withCalls (s : State) (cs : List HostCall) (keys : Keypad) :
    UnchangedBut [.keys, .calls, .result] s ((s.withCalls cs).withKeys keys) := by
  intro p hp
  obtain ⟨notKeys, notCalls, notResult⟩ : p ≠ .keys ∧ p ≠ .calls ∧ p ≠ .result := by simpa using hp
  exact (Part.same_withKeys (by simp [notKeys, notResult]) keys).2 ((Part.same_withCalls notCalls cs).2 (p.same_refl s))

namespace Machine

theorem step_of_head? {s : State} {c : HostCall} (h : s.calls.head? = some c) :
    step s = runCall c (s.withCalls s.calls.tail) := by
  rw [step_eq_runCall, h, Option.getD_some]

/-- A tick of an engine that holds no fault runs the instruction at PC with ROM load closed. -/
theorem step_of_unfaulted {s : State} (htick : s.tickIsNext) (hf : s.heldFault = none) :
    step s = runAtPc (s.withCalls s.calls.tail).closeLoad :=
  (step_of_tick htick).trans (instructionTick_of_unfaulted hf)

theorem State.tickError_of_unknown {s : State} {w raw : Word} (fetched : fetch s = .ok w)
    (unknown : decodeWord w = .unknown raw) : s.tickError = some (.unknownInstruction raw) := by
  simp only [State.tickError, fetched, unknown]

theorem State.tickError_of_outside {s : State} (h : 4096 < s.pc.toNat + 2) :
    s.tickError = some (.indexOutOfRange .fetch (max s.pc.toNat 4096)) := by
  simp only [State.tickError, fetch_of_outside h]

/-- Settles O3: the tick closes ROM load, fetches inside memory and runs what the word decodes to (R81). -/
theorem stepRunsDecodedInstruction : Obligations.StepRunsDecodedInstruction := by
  intro s ins htick hf hpc decoded
  exact (step_of_unfaulted htick hf).trans (runAtPc_of_instr (fetch_of_inside hpc) decoded)

/-- Settles O4: a fetch past memory and an unknown word are the errors at PC the tick raises (R76, R81). -/
theorem unfetchableOrUnknownWordRaises : Obligations.UnfetchableOrUnknownWordRaises := by
  intro s htick hf
  have hstep := step_of_unfaulted htick hf
  refine ⟨fun outside => ?_, fun raw hpc unknown => ⟨decodeWord_unknown unknown, ?_⟩⟩
  · exact .of_eq (hstep.trans (runAtPc_of_error (State.tickError_of_outside outside)))
  · exact .of_eq (hstep.trans (runAtPc_of_error (State.tickError_of_unknown (fetch_of_inside hpc) unknown)))

/-- Settles O7: of the six calls only a ROM load that is not admitted answers no next state. -/
theorem stepStopsOnlyOnUnadmittedLoad : Obligations.StepStopsOnlyOnUnadmittedLoad := by
  intro s
  have hstep := step_eq_runCall s
  rcases runCall_cases (s.calls.head?.getD .tick) (s.withCalls s.calls.tail) with
    ⟨t, ht, -⟩ | ⟨rom, hload, closed, refused⟩
  · exact .inl ⟨t, hstep.trans ht⟩
  · refine .inr ⟨rom, s.calls.tail, ?_, closed, hstep.trans refused⟩
    cases hc : s.calls with
    | nil => simp [hc] at hload
    | cons c rest => simpa [hc] using hload

/-- Settles O6: no call but reset writes `run` of a faulted engine, and the tick, the timer tick, the framebuffer read
and the keypad write keep the rest; a ROM load is not admitted. -/
theorem onlyResetLeavesFaulted : Obligations.OnlyResetLeavesFaulted := by
  intro s t e faulted closed notReset hstep
  have leaves := leaves_of_step hstep
  generalize hcall : s.calls.head?.getD .tick = c at leaves
  cases leaves with
  | held | read => exact ⟨faulted, (UnchangedBut.answer_withCalls s _ _).mono (by simp)⟩
  | ran unfaulted => exact absurd faulted (heldFault_eq_none.1 unfaulted e)
  | counted => exact ⟨faulted, (UnchangedBut.counted_withCalls s _).mono (by simp)⟩
  | written keys => exact ⟨faulted, (UnchangedBut.withKeys_withCalls s _ keys).mono (by simp)⟩
  | loaded admitted | tooLarge admitted => exact absurd (closed.symm.trans admitted) Bool.false_ne_true
  | reset =>
    cases hc : s.calls.head? with
    | none => simp [hc] at hcall
    | some c => exact absurd (hc.trans (by simpa [hc] using hcall)) notReset

/-- Settles O49: the refusal is `loadRom`'s own, and whatever a tick ends in, ROM load was closed before and no
footprint opens it. -/
theorem loadOutsideAdmissionIsRefused : Obligations.LoadOutsideAdmissionIsRefused := by
  refine ⟨fun rom rest s hcalls closed => ?_, fun s t htick hf hstep => ?_⟩
  · exact (step_of_cons hcalls).trans (if_neg (by simp [closed]))
  · have ends := runAtPc_ends (s.withCalls s.calls.tail).closeLoad
    rw [← step_of_unfaulted htick hf, hstep] at ends
    cases ends with
    | raised | blocked => rfl
    | completed _ _ writes => exact writes.frame .loadAdmitted (Instr.loadAdmitted_not_mem_footprint _)

/-- Settles O50: the keypad write and the framebuffer read, each with its frame (R243, R244). -/
theorem keypadWriteAndFramebufferRead : Obligations.KeypadWriteAndFramebufferRead := by
  intro keys rest s
  exact ⟨fun hcalls => ⟨_, step_of_cons hcalls, rfl, rfl, .withKeys_withCalls s rest keys⟩,
    fun hcalls => ⟨_, step_of_cons hcalls, rfl, rfl, .answer_withCalls s rest _⟩⟩

theorem countDown_toNat (b : Byte) : (countDown b).toNat = b.toNat - 1 := by
  unfold countDown
  split
  · rw [BitVec.toNat_sub]; simp; omega
  · omega

/-- Settles O46: both timers count down and stay at 0 (R239). -/
theorem timerTickCountsDown : Obligations.TimerTickCountsDown := by
  intro s hcall
  exact ⟨_, step_of_head? hcall, countDown_toNat s.dt, countDown_toNat s.st, rfl, .counted_withCalls s _⟩

theorem soundEdge_of_one {st0 : Byte} (h : st0.toNat = 1) (latch : Bool) : soundEdge st0 latch = (.soundStopped, false) :=
  if_pos (BitVec.eq_of_toNat_eq h)

theorem soundEdge_of_zero {st0 : Byte} (h : st0.toNat = 0) (latch : Bool) :
    soundEdge st0 latch = (if latch then .soundStopped else .noChange, false) := by
  obtain rfl : st0 = 0 := BitVec.eq_of_toNat_eq h
  cases latch <;> rfl

theorem soundEdge_of_two_le {st0 : Byte} (h : 2 ≤ st0.toNat) (latch : Bool) :
    soundEdge st0 latch = (if latch then .noChange else .soundStarted, true) := by
  have notOne : st0 ≠ 1#8 := by rintro rfl; simp at h
  have notZero : st0 ≠ 0#8 := by rintro rfl; simp at h
  cases latch <;> simp [soundEdge, notOne, notZero, h]

/-- Settles O47: what the timer tick reports and leaves in the latch is the sound edge of ST before it (R241). -/
theorem soundEdgesFollowTheLatch : Obligations.SoundEdgesFollowTheLatch := by
  intro s hcall
  have hresult : ((s.withCalls s.calls.tail).counted).result = .timer (soundEdge s.st s.soundLatch).1 := rfl
  have hlatch : ((s.withCalls s.calls.tail).counted).soundLatch = (soundEdge s.st s.soundLatch).2 := rfl
  refine ⟨(s.withCalls s.calls.tail).counted, step_of_head? hcall, fun one => ?_, fun zero latch => ?_,
    fun zero latch => ?_, fun above latch => ?_, fun above latch => ?_⟩ <;> rw [hresult, hlatch]
  · simp [soundEdge_of_one one]
  · simp [soundEdge_of_zero zero, latch]
  · simp [soundEdge_of_zero zero, latch]
  · simp [soundEdge_of_two_le above, latch]
  · simp [soundEdge_of_two_le above, latch]

end Machine

end Sys2Proof

/-! The statements on runs of ticks (30_encoding.md R84, 44_timers_keys.md R215, 60_exceptions.md R233, 70_reset_and_hazards.md
R283). -/

namespace Sys2Proof

open Machine

namespace Machine

theorem tickIsNext_of_take {s : State} {n : Nat} (h : ∀ c ∈ s.calls.take (n + 1), c = .tick) : s.tickIsNext := by
  cases hc : s.calls with
  | nil => simp [State.tickIsNext, hc]
  | cons c rest => simpa [State.tickIsNext, hc] using h c (by simp [hc])

/-- Package of a run of ticks that all do the same: where each tick from a `P` state leaves `f`, which is again a `P`
state and which `f` overwrites, any positive number of ticks leaves `f`, with the calls taken. -/
theorem run_ticks {P : State → Prop} {f : State → List HostCall → State}
    (tick : ∀ s, P s → s.tickIsNext → step s = .next (f s s.calls.tail)) (keeps : ∀ s cs, P s → P (f s cs))
    (calls : ∀ s cs, (f s cs).calls = cs) (again : ∀ s cs ds, f (f s cs) ds = f s ds) (n : Nat) (s : State) (h : P s)
    (ticks : ∀ c ∈ s.calls.take (n + 1), c = .tick) : core.run (n + 1) s = .next (f s (s.calls.drop (n + 1))) := by
  induction n generalizing s with
  | zero =>
    rw [run_succ_of_next 0 (tick s h (tickIsNext_of_take ticks)), List.drop_one]
    rfl
  | succ n ih =>
    rw [run_succ_of_next (n + 1) (tick s h (tickIsNext_of_take ticks)), ih _ (keeps s _ h), again, calls, List.drop_tail]
    intro c hc
    rw [calls] at hc
    refine ticks c ?_
    cases hs : s.calls with
    | nil => simp [hs] at hc
    | cons d rest => rw [List.take_succ_cons]; rw [hs] at hc; exact List.mem_cons_of_mem d hc

/-- A run of `m + k` steps goes on for `k` from the state `m` steps leave. -/
theorem run_add_of_next {m : Nat} {s t : State} (h : core.run m s = .next t) (k : Nat) :
    core.run (m + k) s = core.run k t := by
  induction m generalizing s with
  | zero => cases h; rw [Nat.zero_add]
  | succ m ih =>
    cases hs : step s with
    | next u => rw [run_succ_of_next m hs] at h; rw [Nat.succ_add, run_succ_of_next _ hs, ih h]
    | fault r => cases r
    | refused r =>
      have hs' : core.step s = .refused r := hs
      simp [Host.Core.run, hs'] at h

/-- The state a tick leaves while faulted: the held error again (60_exceptions.md R233). -/
def State.heldAgain (e : VmError) (s : State) (cs : List HostCall) : State := (s.withCalls cs).answer (.tick (.error e))

/-- Settles O5: each tick answers the held error and leaves the same fault for the next. -/
theorem heldFaultIsReturnedByEveryTick : Obligations.HeldFaultIsReturnedByEveryTick := by
  intro n m s e faulted hcalls
  have hrun := run_ticks (P := fun s => s.run = .faulted e) (f := State.heldAgain e)
    (fun s h htick => (step_of_tick htick).trans (instructionTick_of_faulted h)) (fun _ _ h => h) (fun _ _ => rfl)
    (fun _ _ _ => rfl) n s faulted
    (fun c hc => List.eq_of_mem_replicate (hcalls ▸ List.mem_of_mem_take hc))
  rw [hrun, hcalls, List.drop_replicate]
  rfl

end Machine

/-- The engine holds no fault and the instruction at PC, whatever else changes beside PC, memory and the keypad, ends at
PC in run state `r` with outcome `out` and writes nothing. -/
structure StaysAtPc (r : RunState) (out : TickOutcome) (s : State) : Prop where
  unfaulted : s.heldFault = none
  stays : ∃ w ins, fetch s = .ok w ∧ decodeWord w = .instr ins ∧
    ∀ t : State, t.pc = s.pc → t.keys = s.keys → exec ins t = .next (t.finish t.pc r out)

/-- The state such a tick leaves. -/
def Machine.State.stayed (r : RunState) (out : TickOutcome) (s : State) (cs : List HostCall) : State :=
  (s.withCalls cs).closeLoad.finish s.pc r out

namespace StaysAtPc

variable {r : RunState} {out : TickOutcome} {s : State}

theorem step_eq (h : StaysAtPc r out s) (htick : s.tickIsNext) : step s = .next (s.stayed r out s.calls.tail) := by
  obtain ⟨unfaulted, w, ins, fetched, decoded, stays⟩ := h
  have hrun : runAtPc (s.withCalls s.calls.tail).closeLoad = exec ins (s.withCalls s.calls.tail).closeLoad :=
    runAtPc_of_instr fetched decoded
  exact (step_of_unfaulted htick unfaulted).trans (hrun.trans (stays _ rfl rfl))

theorem stayed (hr : ∀ e, r ≠ .faulted e) (h : StaysAtPc r out s) (cs : List HostCall) :
    StaysAtPc r out (s.stayed r out cs) :=
  ⟨heldFault_eq_none.2 hr, h.stays⟩

/-- Any positive number of ticks leaves what one leaves. -/
theorem run_eq (hr : ∀ e, r ≠ .faulted e) (h : StaysAtPc r out s) (n : Nat)
    (ticks : ∀ c ∈ s.calls.take (n + 1), c = .tick) :
    core.run (n + 1) s = .next (s.stayed r out (s.calls.drop (n + 1))) :=
  run_ticks (P := StaysAtPc r out) (f := State.stayed r out) (fun _ h htick => h.step_eq htick)
    (fun _ cs h => h.stayed hr cs) (fun _ _ => rfl) (fun _ _ _ => rfl) n s h ticks

/-- With no call listed nothing of the list changes. -/
theorem run_eq_of_noCalls (hr : ∀ e, r ≠ .faulted e) (h : StaysAtPc r out s) (hcalls : s.calls = []) (n : Nat) :
    core.run (n + 1) s = .next { s with loadAdmitted := false, run := r, result := .tick out } := by
  rw [h.run_eq hr n (by simp [hcalls]), hcalls, List.drop_nil, ← hcalls]
  rfl

end StaysAtPc

namespace Machine

/-- Settles O51: the jump's target is PC, so each tick ends at PC and runs on (R283). -/
theorem selfJumpNeverMoves : Obligations.SelfJumpNeverMoves := by
  intro n nnn w s unfaulted hcalls fetched decoded hself
  have target : zext nnn = s.pc := BitVec.eq_of_toNat_eq ((toNat_zext nnn).trans hself)
  refine StaysAtPc.run_eq_of_noCalls (by simp) ⟨unfaulted, w, _, fetched, decoded, fun t hpc _ => ?_⟩ hcalls n
  rw [exec_jp, goTo_eq, target, hpc]

/-- With a key pressed the key-wait loads the number of a pressed key and goes on. -/
theorem ldVxK_of_pressed (x : Reg) {s : State} (h : ∃ k : Fin 16, s.keys[k] = true) :
    ∃ k : Fin 16, s.keys[k] = true ∧ exec (.ldVxK x) s = goOn (s.setReg x (BitVec.ofNat 8 k.val)) := by
  cases hpick : keyPick (pressedKeys s.keys) with
  | none =>
    obtain ⟨k, hk⟩ := h
    exact absurd ((keyPick_eq_none.1 hpick k).symm.trans hk) Bool.false_ne_true
  | some k => exact ⟨k, pressed_of_keyPick hpick, ldVxK_of_key hpick⟩

/-- A tick at a key-wait with a key pressed loads the number of a pressed key and goes on at `PC + 2`. -/
theorem step_of_ldVxK_pressed {s : State} {w : Word} {x : Reg} (htick : s.tickIsNext) (unfaulted : s.heldFault = none)
    (fetched : fetch s = .ok w) (decoded : decodeWord w = .instr (.ldVxK x)) (h : ∃ k : Fin 16, s.keys[k] = true) :
    ∃ t, step s = .next t ∧ (∃ k : Fin 16, s.keys[k] = true ∧ (t.reg x).toNat = k.val) ∧
      t.pc.toNat = s.pc.toNat + 2 ∧ t.run = .running ∧ t.result = .tick .continued := by
  obtain ⟨k, hk, hexec⟩ := ldVxK_of_pressed x (s := (s.withCalls s.calls.tail).closeLoad) h
  have hrun : runAtPc (s.withCalls s.calls.tail).closeLoad = exec (.ldVxK x) (s.withCalls s.calls.tail).closeLoad :=
    runAtPc_of_instr fetched decoded
  refine ⟨_, (step_of_unfaulted htick unfaulted).trans (hrun.trans (hexec.trans (goOn_eq _))), ⟨k, hk, ?_⟩, ?_, rfl, rfl⟩
  · rw [State.finish_reg, State.setReg_reg_self, BitVec.toNat_ofNat, Nat.mod_eq_of_lt (by omega)]
  · have inside : s.pc.toNat + 2 ≤ 4096 := pc_of_fetch_ok fetched
    simp [BitVec.toNat_add]
    omega

/-- Settles O45: while no key is pressed each tick blocks at PC; the keypad write leaves the engine waiting there, and
the tick after it loads a pressed key. -/
theorem keyWaitRetriesUntilAKey : Obligations.KeyWaitRetriesUntilAKey := by
  intro n x w s keys unfaulted hcalls fetched decoded noKey somePressed
  have blocks (cs : List HostCall) : StaysAtPc .waitingForKey .blocked { s with calls := cs } :=
    ⟨unfaulted, w, _, fetched, decoded, fun t _ hkeys => ldVxK_of_noKey fun k => by rw [hkeys]; exact noKey k⟩
  refine ⟨StaysAtPc.run_eq_of_noCalls (by simp) (s := s) (blocks s.calls) hcalls n, ?_⟩
  have hticks := (blocks (List.replicate (n + 1) .tick ++ [.keypadWrite keys, .tick])).run_eq (by simp) n
    (fun c hc => List.eq_of_mem_replicate (n := n + 1) (by simpa using hc))
  have taken : (List.replicate (n + 1) HostCall.tick ++ [HostCall.keypadWrite keys, .tick]).drop (n + 1) =
      [.keypadWrite keys, .tick] := List.drop_left' List.length_replicate
  rw [taken] at hticks
  have hwrite : step (State.stayed .waitingForKey .blocked s [.keypadWrite keys, .tick]) =
      .next ((State.stayed .waitingForKey .blocked s [.tick]).withKeys keys) := rfl
  obtain ⟨t, htick, loaded⟩ := step_of_ldVxK_pressed
    (s := (State.stayed .waitingForKey .blocked s [.tick]).withKeys keys) rfl rfl fetched decoded somePressed
  exact ⟨t, (run_add_of_next hticks 2).trans ((run_succ_of_next 1 hwrite).trans (run_succ_of_next 0 htick)), loaded⟩

end Machine

end Sys2Proof

/-! The statements on calls, returns, offsets and key skips (40_control_flow.md). -/

namespace Sys2Proof.Machine

theorem exec_jpV0 (nnn : Addr12) (s : State) : exec (.jpV0 nnn) s = goTo (zext nnn + (s.reg 0).setWidth 16) s := rfl

theorem exec_sneImm (x : Reg) (nn : Byte) (s : State) : exec (.sneImm x nn) s = skipIf (decide (s.reg x ≠ nn)) s := rfl

/-- Settles O18: with room the return address goes to entry SP; a full stack is the error of `CALL` (R103). -/
theorem callPushesReturnAddress : Obligations.CallPushesReturnAddress := by
  refine fun nnn s => ⟨fun room => ?_, fun full => .of_eq (exec_of_error (if_pos full))⟩
  have writes : Writes [.stack, .sp] [] s (s.push (s.pc + 2) room) := .push (by simp) (by simp) s room
  refine ⟨_, (exec_call_of_room room nnn).trans (goTo_eq ..), toNat_zext nnn, rfl, fun j => ?_, .of_finish writes.frame ..⟩
  rw [State.finish_stack, State.push_stack_getElem]
  exact ⟨fun isTop => by simp [isTop, BitVec.toNat_add], fun notTop => if_neg notTop⟩

/-- Settles O19: with an entry RET goes to entry SP - 1 and lowers SP; an empty stack is its error (R101). -/
theorem returnPopsIntoPc : Obligations.ReturnPopsIntoPc := by
  refine fun s => ⟨fun j hsp => ?_, fun empty => .of_eq (exec_of_error (if_pos empty))⟩
  have held : 0 < s.sp.val := by omega
  have isTop : s.sp.val - 1 = j.val := by omega
  have writes : Writes [.sp] [] s (s.drop held) := (Writes.refl ..).drop List.mem_cons_self held
  refine ⟨_, (exec_ret_of_held held).trans (goTo_eq ..), ?_, isTop, .of_finish writes.frame ..⟩
  simp [State.top, isTop]

/-- Settles O20: the entry RET pops is the one CALL has just pushed, and SP is back where it was. -/
theorem returnAfterCallComesBack : Obligations.ReturnAfterCallComesBack := by
  intro nnn s room
  refine ⟨_, _, (exec_call_of_room room nnn).trans (goTo_eq ..),
    (exec_ret_of_held (Nat.succ_pos s.sp.val)).trans (goTo_eq ..), ?pops, rfl, rfl, fun p hp => ?frame⟩
  case pops => simp [State.top]
  case frame =>
    cases p with
    | pc | run | result | stack => simp at hp
    | sp => exact Fin.ext (Nat.add_sub_cancel s.sp.val 1)
    | mem | v | keys => exact fun _ => rfl
    | fb => exact fun _ _ => rfl
    | _ => rfl

/-- Settles O21: the sum of a 12-bit and an 8-bit number does not reach 2^16 (R104). -/
theorem jumpWithOffsetAddsV0 : Obligations.JumpWithOffsetAddsV0 := by
  intro nnn s
  refine ⟨_, (exec_jpV0 nnn s).trans (goTo_eq ..), ?_, .of_finish (.refl _ s) ..⟩
  rw [State.finish_pc, BitVec.toNat_add, toNat_zext, BitVec.toNat_setWidth_of_le (by decide)]
  omega

/-- Settles O23: `SNE` is a `skipIf` on a test of two bytes (R106). -/
theorem skipNotEqualImmediate : Obligations.SkipNotEqualImmediate :=
  fun x nn s => .of_exec_eq_skipIf (exec_sneImm x nn s) decide_byte_ne_iff

/-- Settles O24: a register below 16 names a key, and each skip is a `skipIf` on its flag or the negation; from 16 on it
is their error (R109, R110). -/
theorem keySkipsReadTheKeyVxNames : Obligations.KeySkipsReadTheKeyVxNames := by
  refine fun x s => ⟨fun k hk => ?_, fun outside => ?_⟩
  · have inside : (s.reg x).toNat < 16 := by omega
    have names : (⟨(s.reg x).toNat, inside⟩ : Fin 16) = k := Fin.ext hk
    refine ⟨.of_exec_eq_skipIf (c := s.keys[k]) ?_ Iff.rfl, .of_exec_eq_skipIf (c := !s.keys[k]) ?_ (by simp)⟩
    · rw [exec_skp, withKey_of_lt inside, names]
    · rw [exec_sknp, withKey_of_lt inside, names]
  · exact ⟨.of_eq (exec_of_error (if_pos outside)), .of_eq (exec_of_error (if_pos outside))⟩

end Sys2Proof.Machine

/-! The statements on arithmetic with a flag, shifts, random bytes and the index register (41_alu.md, 42_index_memory.md). -/

namespace Sys2Proof

open Machine

/-- An instruction that runs as `goOn` after writing `b` to `x` and then the flag to VF sets both (41_alu.md R130, D10). -/
theorem SetsRegAndFlag.of_exec_eq_goOn {ins : Instr} {s : State} {x : Reg} {b : Byte} {c : Bool} {value : Nat} {flag : Prop}
    (hexec : exec ins s = goOn (s.setRegThenFlag x b c)) (hvalue : b.toNat = value) (hflag : c = true ↔ flag) :
    SetsRegAndFlag ins s x value flag := by
  have writes : Writes [.v] [x, 15] s (s.setRegThenFlag x b c) :=
    (Writes.refl ..).setRegThenFlag List.mem_cons_self List.mem_cons_self (by simp [vf]) b c
  have flagIs : (s.setRegThenFlag x b c).reg 15 = flagByte c := by rw [State.setRegThenFlag_reg]; exact if_pos rfl
  refine ⟨_, hexec.trans (goOn_eq _), fun notFlag => ?_, fun holds => ?_, fun fails => ?_, writes.regsFrame, ?_,
    .of_finish writes.frame ..⟩
  · rw [State.finish_reg, State.setRegThenFlag_reg, if_neg (show x ≠ vf from notFlag), if_pos rfl, hvalue]
  · rw [State.finish_reg, flagIs, hflag.2 holds]; rfl
  · rw [State.finish_reg, flagIs, Bool.eq_false_iff.2 (mt hflag.1 fails)]; rfl
  · simp [BitVec.toNat_add]

namespace Machine

theorem exec_addReg (x y : Reg) (s : State) :
    exec (.addReg x y) s = goOn (s.setRegThenFlag x (s.reg x + s.reg y) (carry (s.reg x) (s.reg y))) := rfl

theorem exec_subReg (x y : Reg) (s : State) :
    exec (.subReg x y) s = goOn (s.setRegThenFlag x (s.reg x - s.reg y) (noBorrow (s.reg x) (s.reg y))) := rfl

theorem exec_subnReg (x y : Reg) (s : State) :
    exec (.subnReg x y) s = goOn (s.setRegThenFlag x (s.reg y - s.reg x) (noBorrow (s.reg y) (s.reg x))) := rfl

theorem exec_shr (x y : Reg) (s : State) :
    exec (.shr x y) s = goOn (s.setRegThenFlag x (s.reg x >>> 1) (shiftedOutRight (s.reg x))) := rfl

theorem exec_shl (x y : Reg) (s : State) :
    exec (.shl x y) s = goOn (s.setRegThenFlag x (s.reg x <<< 1) (shiftedOutLeft (s.reg x))) := rfl

theorem toNat_byte_sub (a b : Byte) : (a - b).toNat = (a.toNat + 256 - b.toNat) % 256 := by
  rw [BitVec.toNat_sub]
  omega

/-- Settles O26: each of the three writes its result and then its flag, carry or no borrow of the values before (R137,
R138, R140). -/
theorem addAndSubtractWithFlag : Obligations.AddAndSubtractWithFlag := by
  intro x y s
  exact ⟨.of_exec_eq_goOn (exec_addReg x y s) (BitVec.toNat_add ..) decide_eq_true_iff,
    .of_exec_eq_goOn (exec_subReg x y s) (toNat_byte_sub ..) decide_eq_true_iff,
    .of_exec_eq_goOn (exec_subnReg x y s) (toNat_byte_sub ..) decide_eq_true_iff⟩

theorem shiftedOutRight_iff (a : Byte) : shiftedOutRight a = true ↔ a.toNat % 2 = 1 := by
  rw [shiftedOutRight, BitVec.getLsbD, Nat.testBit_zero, decide_eq_true_iff]

theorem shiftedOutLeft_iff (a : Byte) : shiftedOutLeft a = true ↔ 128 ≤ a.toNat := by
  have isMsb : shiftedOutLeft a = a.msb := BitVec.msb_eq_getLsbD_last a |>.symm
  rw [isMsb, BitVec.msb_eq_decide, decide_eq_true_iff]

/-- Settles O27: the result is half or double, the flag the bit shifted out, and no shift reads its y field (R139,
R141). -/
theorem shiftsByOneIgnoreVy : Obligations.ShiftsByOneIgnoreVy := by
  intro x y z s
  refine ⟨.of_exec_eq_goOn (exec_shr x y s) ?_ (shiftedOutRight_iff _),
    .of_exec_eq_goOn (exec_shl x y s) ?_ (shiftedOutLeft_iff _), rfl, rfl⟩
  · rw [BitVec.toNat_ushiftRight, Nat.shiftRight_eq_div_pow, Nat.pow_one]
  · rw [BitVec.toNat_shiftLeft, Nat.shiftLeft_eq, Nat.pow_one]

theorem exec_rnd (x : Reg) (nn : Byte) (s : State) :
    exec (.rnd x nn) s = goOn (s.setReg x (Config.randomByte s.draws &&& nn)).drawn := rfl

/-- Settles O28: VX is the free byte and NN, a bit of which is 0 wherever NN's is (R142). -/
theorem randomIsMaskedFreshByte : Obligations.RandomIsMaskedFreshByte := by
  intro x nn s
  have writes : Writes [.v, .draws] [x] s (s.setReg x (Config.randomByte s.draws &&& nn)).drawn :=
    ((Writes.refl ..).setReg List.mem_cons_self List.mem_cons_self _).drawn (by simp)
  have drawn : (s.setReg x (Config.randomByte s.draws &&& nn)).drawn.reg x = Config.randomByte s.draws &&& nn := by simp
  refine ⟨_, (exec_rnd x nn s).trans (goOn_eq _), drawn, rfl, fun j masked => ?_, writes.regsFrame, ?_,
    .of_finish writes.frame ..⟩
  · rw [State.finish_reg, drawn, BitVec.getLsbD_and, masked, Bool.and_false]
  · simp [BitVec.toNat_add]

theorem exec_addI (x : Reg) (s : State) : exec (.addI x) s = goOn (s.setI (s.i + (s.reg x).setWidth 16)) := rfl

theorem exec_ldF (x : Reg) (s : State) : exec (.ldF x) s = goOn (s.setI (glyphAddress (s.reg x))) := rfl

theorem glyphAddress_toNat (value : Byte) : (glyphAddress value).toNat = 5 * (value.toNat % 16) := by
  have lowNibble : (value &&& 0x0F).toNat = value.toNat % 16 := Nat.and_two_pow_sub_one_eq_mod value.toNat 4
  rw [glyphAddress, BitVec.toNat_ofNat, lowNibble, fontBase, Config.glyphBytes]
  omega

/-- Settles O30: I becomes the sum mod 2^16, or the glyph's address (R172, R173). -/
theorem indexRegisterArithmetic : Obligations.IndexRegisterArithmetic := by
  refine fun x s => ⟨.of_exec_eq_goOn (exec_addI x s) ?_, .of_exec_eq_goOn (exec_ldF x s) (glyphAddress_toNat _)⟩
  rw [BitVec.toNat_add, BitVec.toNat_setWidth_of_le (by decide)]

/-- A key picked from the pressed keys is the lowest pressed one (44_timers_keys.md R214, D14). -/
theorem keyPick_eq_some_of_lowest {keys : Keypad} {k : Fin 16} (hk : keys[k] = true)
    (lowest : ∀ j : Fin 16, j.val < k.val → keys[j] = false) : keyPick (pressedKeys keys) = some k := by
  rw [keyPick, pressedKeys, List.head?_filter, List.find?_eq_some_iff_getElem]
  refine ⟨hk, k.val, by simp, by simp, fun j hj => ?_⟩
  rw [List.getElem_finRange]
  simp only [Fin.cast_mk]
  rw [lowest ⟨j, by omega⟩ hj]
  rfl

/-- Settles O44: without a key the block changes `run` and the result only, for PC is written with itself; else the
lowest pressed key is loaded (R214). -/
theorem keyWaitBlocksOrLoadsLowestKey : Obligations.KeyWaitBlocksOrLoadsLowestKey := by
  refine fun x s => ⟨fun noKey => ⟨_, ldVxK_of_noKey noKey, rfl, rfl, fun p hp => ?_⟩, fun k hk lowest => ?_⟩
  · by_cases isPc : p = .pc
    · subst isPc; rfl
    · have notFinish : p ∉ [Part.pc, .run, .result] := fun h => hp ((List.mem_cons.1 h).resolve_left isPc)
      exact (Part.same_finish notFinish ..).2 (p.same_refl s)
  · refine .of_exec_eq_goOn (ldVxK_of_key (keyPick_eq_some_of_lowest hk lowest)) ?_
    rw [BitVec.toNat_ofNat, Nat.mod_eq_of_lt (by omega)]

end Machine

end Sys2Proof

/-! The statements on memory transfers (42_index_memory.md R174 to R177, 20_memory.md R53, R65). -/

namespace Sys2Proof.Machine

theorem exec_ldB_of_inside {s : State} (inside : s.i.toNat + 3 ≤ 4096) (x : Reg) :
    exec (.ldB x) s = goOn (s.storedDigits x) := (exec_ldB x s).trans (withRange_of_inside (.inr inside))

theorem exec_ldMemVx_of_inside {s : State} {x : Reg} (inside : s.i.toNat + (x.val + 1) ≤ 4096) :
    exec (.ldMemVx x) s = goOn (s.storedRegs x) := (exec_ldMemVx x s).trans (withRange_of_inside (.inr inside))

theorem exec_ldVxMem_of_inside {s : State} {x : Reg} (inside : s.i.toNat + (x.val + 1) ≤ 4096) :
    exec (.ldVxMem x) s = goOn (s.loadedRegs x) := (exec_ldVxMem x s).trans (withRange_of_inside (.inr inside))

/-! What a transfer leaves at each address and in each register. -/

/-- After the digits are stored, the three bytes from I are the digits and every other byte is as before. -/
theorem State.storedDigits_byte {s : State} (hwf : MemoryCanonical s) (inside : s.i.toNat + 3 ≤ 4096) (x : Reg) (a : Nat) :
    (s.storedDigits x).mem.byte a =
      if a = s.indexed 2 then ones (s.reg x) else if a = s.indexed 1 then tens (s.reg x)
      else if a = s.indexed 0 then hundreds (s.reg x) else s.mem.byte a := by
  have fits : ∀ k, k < 3 → s.indexed k < 4096 := fun k hk => by rw [State.indexed_eq]; omega
  have wf1 := Memory.write_wf (hundreds (s.reg x)) hwf (fits 0 (by omega))
  have wf2 := Memory.write_wf (tens (s.reg x)) wf1 (fits 1 (by omega))
  rw [State.storedDigits, State.memWrite_mem, State.memWrite_mem, State.memWrite_mem, Memory.byte_write wf2,
    Memory.byte_write wf1, Memory.byte_write hwf]

theorem State.indexed_lt {s : State} {x k : Reg} (inside : s.i.toNat + (x.val + 1) ≤ 4096) (hk : k ∈ regsUpTo x) :
    s.i.toNat + k.val < 4096 := by
  have upTo : k.val ≤ x.val := mem_regsUpTo.1 hk
  omega

/-- After the registers are stored, the byte at I + k is register k's. -/
theorem State.storedRegs_byte {s : State} {x k : Reg} (hwf : MemoryCanonical s) (inside : s.i.toNat + (x.val + 1) ≤ 4096)
    (hk : k.val ≤ x.val) : (s.storedRegs x).mem.byte (s.indexed k.val) = s.reg k :=
  (foldl_memWrite_byte s.reg hwf fun _ hk => State.indexed_lt inside hk).1 k (mem_regsUpTo.2 hk)

/-- Every byte outside the range is as before. -/
theorem State.storedRegs_byte_outside {s : State} {x : Reg} (hwf : MemoryCanonical s)
    (inside : s.i.toNat + (x.val + 1) ≤ 4096) : MemUnchangedOutside (s.indexed 0) (x.val + 1) s (s.storedRegs x) := by
  intro b hb
  refine (foldl_memWrite_byte s.reg hwf fun _ hk => State.indexed_lt inside hk).2 b fun k hk => ?_
  have upTo : k.val ≤ x.val := mem_regsUpTo.1 hk
  rw [State.indexed_eq] at hb
  omega

/-- After the registers are loaded, register k up to x is the byte at I + k. -/
theorem State.loadedRegs_reg (s : State) {x k : Reg} (hk : k.val ≤ x.val) :
    (s.loadedRegs x).reg k = s.mem.byte (s.indexed k.val) :=
  (foldl_setReg_reg ..).trans (if_pos (mem_regsUpTo.2 hk))

theorem State.loadedRegs_reg_above (s : State) {x k : Reg} (hk : x.val < k.val) : (s.loadedRegs x).reg k = s.reg k :=
  (foldl_setReg_reg ..).trans (if_neg fun h => absurd (mem_regsUpTo.1 h) (Nat.not_le.2 hk))

/-! The digits of a byte. -/

theorem toNat_hundreds (b : Byte) : (hundreds b).toNat = b.toNat / 100 := by
  rw [hundreds, BitVec.toNat_ofNat]; omega

theorem toNat_tens (b : Byte) : (tens b).toNat = b.toNat / 10 % 10 := by
  rw [tens, BitVec.toNat_ofNat]; omega

theorem toNat_ones (b : Byte) : (ones b).toNat = b.toNat % 10 := by
  rw [ones, BitVec.toNat_ofNat]; omega

theorem State.storedDigits_hundreds {s : State} (hwf : MemoryCanonical s) (inside : s.i.toNat + 3 ≤ 4096) (x : Reg) :
    ((s.storedDigits x).mem.byte (s.indexed 0)).toNat = (s.reg x).toNat / 100 := by
  rw [State.storedDigits_byte hwf inside, ← toNat_hundreds]
  simp [State.indexed_eq]

theorem State.storedDigits_tens {s : State} (hwf : MemoryCanonical s) (inside : s.i.toNat + 3 ≤ 4096) (x : Reg) :
    ((s.storedDigits x).mem.byte (s.indexed 1)).toNat = (s.reg x).toNat / 10 % 10 := by
  rw [State.storedDigits_byte hwf inside, ← toNat_tens]
  simp [State.indexed_eq]

theorem State.storedDigits_ones {s : State} (hwf : MemoryCanonical s) (inside : s.i.toNat + 3 ≤ 4096) (x : Reg) :
    ((s.storedDigits x).mem.byte (s.indexed 2)).toNat = (s.reg x).toNat % 10 := by
  rw [State.storedDigits_byte hwf inside, ← toNat_ones]
  simp [State.indexed_eq]

/-- Settles O31: `LD B` stores the three digits from I and goes on (R174). -/
theorem bcdStoresThreeDigits : Obligations.BcdStoresThreeDigits := by
  intro x s hwf inside
  have writes : Writes [.mem] [] s (s.storedDigits x) := .storedDigits List.mem_cons_self inside x
  refine ⟨_, (exec_ldB_of_inside inside x).trans (goOn_eq _), State.storedDigits_hundreds hwf inside x,
    State.storedDigits_tens hwf inside x, State.storedDigits_ones hwf inside x, fun b hb => ?outside,
    writes.memory hwf, ?pc, .of_finish writes.frame ..⟩
  case outside =>
    rw [State.indexed_eq] at hb
    rw [State.finish_mem, State.storedDigits_byte hwf inside, State.indexed_eq, State.indexed_eq, State.indexed_eq,
      if_neg (by omega), if_neg (by omega), if_neg (by omega)]
  case pc => simp [BitVec.toNat_add, State.storedDigits]

/-- Settles O33: `LD [I]` stores V0 to VX from I and goes on (R175). -/
theorem storeWritesRegistersFromI : Obligations.StoreWritesRegistersFromI := by
  intro x s hwf inside
  have writes : Writes [.mem] [] s (s.storedRegs x) := .storedRegs List.mem_cons_self inside
  have samePc : (s.storedRegs x).pc = s.pc := writes.frame .pc (by simp)
  refine ⟨_, (exec_ldMemVx_of_inside inside).trans (goOn_eq _), fun k hk => State.storedRegs_byte hwf inside hk,
    State.storedRegs_byte_outside hwf inside, writes.memory hwf, ?_, .of_finish writes.frame ..⟩
  simp [BitVec.toNat_add, samePc]

/-- Settles O34: `LD VX, [I]` loads V0 to VX from I and goes on (R176). -/
theorem loadReadsRegistersFromI : Obligations.LoadReadsRegistersFromI := by
  intro x s inside
  have writes : Writes [.v] (regsUpTo x) s (s.loadedRegs x) := .loadedRegs List.mem_cons_self fun _ => id
  have samePc : (s.loadedRegs x).pc = s.pc := writes.frame .pc (by simp)
  refine ⟨_, (exec_ldVxMem_of_inside inside).trans (goOn_eq _),
    fun k => ⟨s.loadedRegs_reg, s.loadedRegs_reg_above⟩, ?_, .of_finish writes.frame ..⟩
  simp [BitVec.toNat_add, samePc]

/-- Settles O32: the load reads the digits back, since the store leaves I alone (R177, D11). -/
theorem bcdRoundTrip : Obligations.BcdRoundTrip := by
  intro x s hwf inside
  obtain ⟨t, stored, h0, h1, h2, -, -, -, completes⟩ := bcdStoresThreeDigits x s hwf inside
  have sameI : t.i = s.i := completes.frame .i (by simp)
  obtain ⟨u, loaded, hregs, -⟩ := loadReadsRegistersFromI 2 t (sameI ▸ inside)
  have readsBack (k : Reg) (hk : k.val ≤ 2) : u.reg k = t.mem.byte (s.indexed k.val) := by
    rw [(hregs k).1 hk, State.indexed_eq, State.indexed_eq, sameI]
  have r0 : (u.reg 0).toNat = (s.reg x).toNat / 100 := readsBack 0 (by decide) ▸ h0
  have r1 : (u.reg 1).toNat = (s.reg x).toNat / 10 % 10 := readsBack 1 (by decide) ▸ h1
  have r2 : (u.reg 2).toNat = (s.reg x).toNat % 10 := readsBack 2 (by decide) ▸ h2
  refine ⟨t, u, stored, loaded, ?_, ?_, ?_, ?_⟩ <;> omega

/-- Settles O35: the store leaves I alone, so the load reads the stored bytes whatever the registers hold (R175, R176). -/
theorem loadAfterStoreRestoresRegisters : Obligations.LoadAfterStoreRestoresRegisters := by
  intro x s hwf inside
  obtain ⟨t, stored, hbytes, -, -, -, completes⟩ := storeWritesRegistersFromI x s hwf inside
  have sameI : t.i = s.i := completes.frame .i (by simp)
  refine ⟨t, stored, fun lost => ?_⟩
  obtain ⟨u, loaded, hregs, -⟩ := loadReadsRegistersFromI x { t with v := lost } (sameI ▸ inside)
  refine ⟨u, loaded, fun k hk => ?_⟩
  rw [(hregs k).1 hk, ← hbytes k hk, State.indexed_eq, State.indexed_eq, sameI]

/-- Settles O36: the range check is the error of each of the four (R53, R170). -/
theorem transfersOutOfRangeRaise : Obligations.TransfersOutOfRangeRaise := by
  refine fun x y n s => ⟨fun outside => ?_, fun outside => ⟨?_, ?_⟩, fun pos outside => ?_⟩
  · exact .of_eq (exec_of_error (checkRange_eq_some ⟨by omega, outside⟩))
  · exact .of_eq (exec_of_error (checkRange_eq_some ⟨by omega, outside⟩))
  · exact .of_eq (exec_of_error (checkRange_eq_some ⟨by omega, outside⟩))
  · exact .of_eq (exec_of_error (checkRange_eq_some ⟨pos, outside⟩))

/-- Settles O37: the fetch at PC + 2 = I reads the two bytes just stored (R65, D27). -/
theorem storedWordIsFetchedNext : Obligations.StoredWordIsFetchedNext := by
  intro x s hwf two inside next
  obtain ⟨t, stored, hbytes, -, -, hpc, -⟩ := storeWritesRegistersFromI x s hwf inside
  have atI : t.pc.toNat = s.i.toNat := by omega
  have first : t.mem.byte s.i.toNat = s.reg 0 := hbytes 0 (Nat.zero_le _)
  have second : t.mem.byte (s.i.toNat + 1) = s.reg 1 := hbytes 1 two
  refine ⟨t, stored, ?_⟩
  rw [fetch_of_inside (by omega), atI, first, second]

end Sys2Proof.Machine

/-! The statements on sprites (43_display.md R191 to R193). -/

namespace Sys2Proof.Machine

theorem exec_drw_of_inside {s : State} {n : Nat} (inside : n = 0 ∨ s.i.toNat + n ≤ 4096) (x y : Reg) :
    exec (.drw x y n) s = goOnRedraw (s.drewSprite x y n) := (exec_drw x y n s).trans (withRange_of_inside inside)

theorem flagByte_collides_eq_one {before : Framebuffer} {lit : List (Fin 64 × Fin 32)}
    (h : ∃ px py, (px, py) ∈ lit ∧ before.pixel px py = true) : flagByte (collides before lit) = 1 := by
  rw [collides_eq_true.2 h]; rfl

theorem flagByte_collides_eq_zero {before : Framebuffer} {lit : List (Fin 64 × Fin 32)}
    (h : ∀ px py, (px, py) ∈ lit → before.pixel px py = false) : flagByte (collides before lit) = 0 := by
  have noCollision : collides before lit = false := by
    rw [Bool.eq_false_iff, ne_eq, collides_eq_true]
    rintro ⟨px, py, hlit, hset⟩
    exact absurd ((h px py hlit).symm.trans hset) Bool.false_ne_true
  rw [noCollision]; rfl

theorem togglePixels_pixel_of_mem {before : Framebuffer} {lit : List (Fin 64 × Fin 32)} {px : Fin 64} {py : Fin 32}
    (h : (px, py) ∈ lit) : (togglePixels before lit).pixel px py = !before.pixel px py :=
  (togglePixels_pixel ..).trans (if_pos h)

theorem togglePixels_pixel_of_not_mem {before : Framebuffer} {lit : List (Fin 64 × Fin 32)} {px : Fin 64} {py : Fin 32}
    (h : (px, py) ∉ lit) : (togglePixels before lit).pixel px py = before.pixel px py :=
  (togglePixels_pixel ..).trans (if_neg h)

theorem togglePixels_togglePixels (before : Framebuffer) (lit : List (Fin 64 × Fin 32)) :
    togglePixels (togglePixels before lit) lit = before := by
  refine Framebuffer.ext_pixel fun px py => ?_
  by_cases h : (px, py) ∈ lit
  · rw [togglePixels_pixel_of_mem h, togglePixels_pixel_of_mem h, Bool.not_not]
  · rw [togglePixels_pixel_of_not_mem h, togglePixels_pixel_of_not_mem h]

/-- The pixels toggled depend on the set of pixels listed only. -/
theorem togglePixels_congr {before : Framebuffer} {lit lit' : List (Fin 64 × Fin 32)} (h : ∀ p, p ∈ lit ↔ p ∈ lit') :
    togglePixels before lit = togglePixels before lit' :=
  Framebuffer.ext_pixel fun px py => by simp only [togglePixels_pixel, h]

/-- Toggling each pixel from its value as the loop goes toggles each once, where none is listed twice. -/
theorem foldl_toggle_eq_togglePixels {lit : List (Fin 64 × Fin 32)} (hnodup : lit.Nodup) (f : Framebuffer) :
    lit.foldl (fun f p => f.setPixel p.1 p.2 (!f.pixel p.1 p.2)) f = togglePixels f lit := by
  induction lit generalizing f with
  | nil => rfl
  | cons p lit ih =>
    obtain ⟨hp, hlit⟩ := List.nodup_cons.1 hnodup
    rw [List.foldl_cons, ih hlit]
    refine Framebuffer.ext_pixel fun px py => ?_
    obtain ⟨qx, qy⟩ := p
    simp only [togglePixels_pixel, Framebuffer.pixel_setPixel, List.mem_cons, Prod.mk.injEq]
    by_cases here : px = qx ∧ py = qy
    · obtain ⟨rfl, rfl⟩ := here
      simp [hp]
    · simp [here]

/-- Two positions of one sprite on the same pixel are the same position: 8 columns do not wrap mod 64, nor 15 rows mod
32. -/
theorem pixelColumn_inj {x0 : Byte} {c c' : Nat} (hc : c < 8) (hc' : c' < 8) (h : pixelColumn x0 c = pixelColumn x0 c') :
    c = c' := by
  have := congrArg Fin.val h
  simp only [pixelColumn] at this
  omega

theorem pixelRow_inj {y0 : Byte} {r r' : Nat} (hr : r < 15) (hr' : r' < 15) (h : pixelRow y0 r = pixelRow y0 r') :
    r = r' := by
  have := congrArg Fin.val h
  simp only [pixelRow] at this
  omega

theorem litInRow_nodup (bits x0 y0 : Byte) (r : Nat) : (litInRow bits x0 y0 r).Nodup := by
  refine List.pairwise_map.2 (List.Pairwise.imp_of_mem (fun {c c'} hc hc' hne h => ?_)
    (List.Pairwise.filter _ List.nodup_range))
  simp only [List.mem_filter, List.mem_range] at hc hc'
  exact hne (pixelColumn_inj hc.1 hc'.1 (Prod.mk.inj h).1)

theorem row_of_mem_litInRow {bits x0 y0 : Byte} {r : Nat} {p : Fin 64 × Fin 32} (h : p ∈ litInRow bits x0 y0 r) :
    p.2 = pixelRow y0 r := by
  simp only [litInRow, List.mem_map] at h
  obtain ⟨c, -, rfl⟩ := h
  rfl

theorem litPixels_nodup (s : State) (x0 y0 : Byte) {n : Nat} (hn : n ≤ 15) : (s.litPixels x0 y0 n).Nodup := by
  refine List.pairwise_flatMap.2 ⟨fun r _ => litInRow_nodup .., ?_⟩
  refine List.Pairwise.imp_of_mem (fun {r r'} hr hr' hne p hp q hq samePixel => ?_) List.nodup_range
  rw [List.mem_range] at hr hr'
  have sameRow : pixelRow y0 r = pixelRow y0 r' := by
    rw [← row_of_mem_litInRow hp, ← row_of_mem_litInRow hq, samePixel]
  exact hne (pixelRow_inj (by omega) (by omega) sameRow)

/-- The lit pixels are decided by I and the bytes of the sprite. -/
theorem litPixels_congr {s t : State} {n : Nat} (hi : t.i = s.i)
    (hbytes : ∀ r, r < n → t.mem.byte (s.i.toNat + r) = s.mem.byte (s.i.toNat + r)) (x0 y0 : Byte) :
    t.litPixels x0 y0 n = s.litPixels x0 y0 n := by
  rw [State.litPixels, State.litPixels, List.flatMap_def, List.flatMap_def]
  refine congrArg List.flatten (List.map_congr_left fun r hr => ?_)
  rw [State.indexed_eq, State.indexed_eq, hi, hbytes r (List.mem_range.1 hr)]

/-- Settles O40: the positions are told apart by row and column, so the list of lit pixels has no repeats, and what is
toggled depends on its members only (R192). -/
theorem spriteNeverOverlapsItself : Obligations.SpriteNeverOverlapsItself := by
  intro x0 y0 n s hn
  have hnodup := litPixels_nodup s x0 y0 hn
  exact ⟨fun r c r' c' hr hc hr' hc' hcol hrow => ⟨pixelRow_inj (by omega) (by omega) hrow, pixelColumn_inj hc hc' hcol⟩,
    hnodup, foldl_toggle_eq_togglePixels hnodup s.fb, fun order hperm => togglePixels_congr fun p => hperm.mem_iff⟩

/-- Settles O39: the pixels the sprite covers are the lit ones, which are toggled, and the flag is their collision
(R191). -/
theorem drawXorsTheSprite : Obligations.DrawXorsTheSprite := by
  intro x y n s _ inside
  have writes : Writes [.fb, .v] [15] s (s.drewSprite x y n) := .drewSprite (by simp) (by simp) List.mem_cons_self x y n
  have flagIs : (s.drewSprite x y n).reg 15 = flagByte (collides s.fb (s.litPixels (s.reg x) (s.reg y) n)) :=
    State.setReg_reg_self ..
  refine ⟨_, (exec_drw_of_inside inside x y).trans (goOnRedraw_eq _), fun px py => ⟨fun covered => ?_, fun uncovered => ?_⟩,
    fun hit => ?_, fun noHit => ?_, writes.regsFrame, ?_, .of_finish writes.frame ..⟩
  · exact togglePixels_pixel_of_mem (mem_litPixels.2 covered)
  · exact togglePixels_pixel_of_not_mem (mt mem_litPixels.1 uncovered)
  · rw [State.finish_reg, flagIs]
    exact flagByte_collides_eq_one (by simpa only [mem_litPixels] using hit)
  · rw [State.finish_reg, flagIs]
    exact flagByte_collides_eq_zero (by simpa only [mem_litPixels] using noHit)
  · simp [BitVec.toNat_add, State.drewSprite]

/-- Settles O41: the second draw toggles the same pixels back, and meets a set pixel exactly where the first one set it
(R193). -/
theorem drawingTwiceCancels : Obligations.DrawingTwiceCancels := by
  intro x y n s _ inside
  refine ⟨_, (exec_drw_of_inside inside x y).trans (goOnRedraw_eq _), fun s' sameFb sameI sameX sameY sameBytes => ?_⟩
  have hfb : s'.fb = togglePixels s.fb (s.litPixels (s.reg x) (s.reg y) n) := Framebuffer.ext_pixel sameFb
  have hlit : s'.litPixels (s'.reg x) (s'.reg y) n = s.litPixels (s.reg x) (s.reg y) n := by
    rw [sameX, sameY, litPixels_congr sameI sameBytes]
  have fbAfter : (s'.drewSprite x y n).fb = s.fb := by
    rw [State.drewSprite, State.setReg_fb, State.setFb_fb, hlit, hfb, togglePixels_togglePixels]
  have flagIs : (s'.drewSprite x y n).reg 15 = flagByte (collides s'.fb (s.litPixels (s.reg x) (s.reg y) n)) := by
    rw [← hlit]; exact State.setReg_reg_self ..
  have setByFirst {px : Fin 64} {py : Fin 32} (covered : SpriteCovers s (s.reg x) (s.reg y) n px py) :
      s'.fb.pixel px py = !s.fb.pixel px py := by
    rw [hfb, togglePixels_pixel_of_mem (mem_litPixels.2 covered)]
  refine ⟨_, (exec_drw_of_inside (by rwa [sameI]) x y).trans (goOnRedraw_eq _), fun px py => ?_, ?_, fun allSet => ?_⟩
  · rw [State.finish_fb, fbAfter]
  · rintro ⟨px, py, covered, clear⟩
    rw [State.finish_reg, flagIs]
    exact flagByte_collides_eq_one ⟨px, py, mem_litPixels.2 covered, by rw [setByFirst covered, clear]; rfl⟩
  · rw [State.finish_reg, flagIs]
    refine flagByte_collides_eq_zero fun px py lit => ?_
    have covered := mem_litPixels.1 lit
    rw [setByFirst covered, allSet px py covered]; rfl

/-- A state with every pixel set, from which glyph 0 is drawn at the top left corner. -/
def allPixelsSet : State := { State.reset with fb := Vector.replicate 32 (Vector.replicate 64 true) }

theorem allPixelsSet_pixel (px : Fin 64) (py : Fin 32) : allPixelsSet.fb.pixel px py = true := by
  simp [allPixelsSet, Framebuffer.pixel]

/-- Refutes O42: with every pixel set, the first draw of the glyph row 0xF0 clears what it covers and the second meets
no set pixel, so VF is 0 though the row is not zero (log 30). -/
theorem not_drawingTwiceCancelsAsWritten : ¬Obligations.DrawingTwiceCancelsAsWritten := by
  intro asWritten
  have inside : 1 = 0 ∨ allPixelsSet.i.toNat + 1 ≤ 4096 := by decide
  obtain ⟨t, first, secondAsWritten⟩ := asWritten 0 1 1 allPixelsSet rfl inside
  obtain ⟨t', first', second⟩ := drawingTwiceCancels 0 1 1 allPixelsSet rfl inside
  obtain rfl : t = t' := Host.Outcome.next.inj (first.symm.trans first')
  have frame := instructionChangesOnlyItsFootprint _ _ _ first
  have regs := registersChangeOnlyWhereListed _ _ _ first
  have sameFb : Part.fb.same t t := Part.same_refl t .fb
  have sameI : t.i = allPixelsSet.i := frame .i (by simp [Instr.footprint])
  have sameBytes : ∀ a, t.mem.byte a = allPixelsSet.mem.byte a := frame .mem (by simp [Instr.footprint])
  have sameX : t.reg 0 = allPixelsSet.reg 0 := regs 0 (by simp [Instr.writtenRegs])
  have sameY : t.reg 1 = allPixelsSet.reg 1 := regs 1 (by simp [Instr.writtenRegs])
  obtain ⟨u, drawn, -, flagAsWritten⟩ := secondAsWritten t sameFb sameI sameX sameY fun _ _ => sameBytes _
  obtain ⟨u', drawn', -, -, flag⟩ := second t sameFb sameI sameX sameY fun _ _ => sameBytes _
  obtain rfl : u = u' := Host.Outcome.next.inj (drawn.symm.trans drawn')
  have isOne : u.reg 15 = 1 := flagAsWritten ⟨0, by decide, by decide⟩
  have isZero : u.reg 15 = 0 := flag fun px py _ => allPixelsSet_pixel px py
  exact absurd (isOne.symm.trans isZero) (by decide)

end Sys2Proof.Machine
